-- ==== Sys2Proof/Word.lean ====
section
/-! DEFINITION. The words of DCF32 (spec R8, R60): register values are unsigned 32-bit patterns, and an offset inside
the register window is a 5-bit number. -/

namespace Sys2Proof

/-- A 32-bit register value or bus data word (R8, R30, R68). -/
abbrev Word := BitVec 32

/-- A byte offset inside the 32-byte register window, 0..31 (R60, R61). -/
abbrev Offset := BitVec 5

/-- One bit as a register value: 1 or 0 (R8 `zext_32`). -/
def bitWord (b : Bool) : Word := if b then 1#32 else 0#32

end Sys2Proof
end

