-- ==== Sys2Proof/Machine/CommandWord.lean ====
section
/-! DEFINITION. The two fields of a command word (spec R91). -/

namespace Sys2Proof

/-- The OP field of a command word (R91). -/
def opField (v : Word) : BitVec 2 := v.extractLsb' 0 2

/-- The RSVD field of a command word (R91). -/
def rsvdField (v : Word) : BitVec 30 := v.extractLsb' 2 30

end Sys2Proof
end

