-- ==== Sys2Proof/Config.lean ====
section
/-! DEFINITION. What is fixed for one DCF32 (spec R7, R49), the one OPEN parameter FD_BASE (R61), and the free values
of the two places where the spec fixes no value (R231, R233). A constant declared `opaque` has no body here: a claim holds
whatever it is. -/

namespace Sys2Proof.Config

/-- BIAS, wired into the datapath (R7, R49). -/
def bias : Nat := 127

/-- RADIX, wired into the datapath (R7, R49). -/
def radix : Nat := 2

/-- The iterations of the mantissa accumulator, i = 0..22 (R7, R134). -/
def mantissaIterations : Nat := 23

/-- The size of every register in bytes, the only access size served (R7, R63). -/
def registerBytes : Nat := 4

/-- The size of the register window in bytes (R7, R61). -/
def windowBytes : Nat := 32

/-- Which 32-byte block of the host's address space the platform gives the window (OPEN, R61; assumption 6). -/
opaque fdBaseBlock : Nat

/-- FD_BASE: some multiple of 32 that the platform fixes (R61). -/
def fdBase : Nat := windowBytes * fdBaseBlock

/-- FREE VALUE (R233, 93_implementation_defined.md item 6): the bus response to the CTRL write that a reset cuts, at its
n-th use: `none` no response, `some true` OK, `some false` ERR (assumption 5). -/
opaque answerCutByReset : Nat → Option Bool

/-- FREE VALUE (R231): the n-th word of register contents after power is applied and before the first reset (assumption
3). -/
opaque powerUpWord : Nat → Word

end Sys2Proof.Config
end

