-- ==== Sys2Proof/Syntax.lean ====
section
/-! DEFINITION. The instructions of DCF32: the three commands of its command register (spec R2, R93), one constructor a
row of spec/opcode_table.json. No command has an operand field, an immediate, a second word or a mode (R90, R94, R97): each
reads the operand registers. -/

namespace Sys2Proof

/-- A command of DCF32 (R93). -/
inductive Instr
  /-- EXTRACT, the Bit Extractor (R110). -/
  | extract
  /-- DECODE, the Field Decoder (R130). -/
  | decode
  /-- RECOMPOSE, the Recomposer (R170). -/
  | recompose
  deriving DecidableEq, Repr

end Sys2Proof
end

