-- ==== Sys2Proof/Machine/Access.lean ====
section
/-! DEFINITION. What passes through DCF32's port and what the outside can do to it (spec R60, R76, R100, R209, R230 to R233):
accesses, responses, host accesses at host addresses, and events in port order; and the eight registers of the window
(R30). -/

namespace Sys2Proof.Machine

/-- What one access asks for (R60): a read of `bytes` bytes, or a write of `bytes` bytes with a 32-bit `wdata`
(assumption 17). -/
inductive Request
  | read (bytes : Nat)
  | write (bytes : Nat) (wdata : Word)
  deriving DecidableEq, Repr

/-- One access on the port, the tuple (kind, off, n, wdata) of R60 and R100. -/
structure Access where
  off : Offset
  req : Request
  deriving DecidableEq, Repr

/-- The one response that ends an access (R60): OK with data for a read, OK for a write, or ERR. -/
inductive Response
  | okRead (rdata : Word)
  | okWrite
  | err
  deriving DecidableEq, Repr

/-- The data word a bus carries with a response to a read: with ERR a bus that needs one carries 0 (R63). A write has
none. -/
def Response.readData : Response → Option Word
  | .okRead d => some d
  | .okWrite => none
  | .err => some 0#32

/-- Who issued an access: nothing of this reaches DCF32 (R73, R209). -/
structure Origin where
  master : Nat
  privileged : Bool
  secure : Bool
  deriving DecidableEq, Repr

/-- What a host does at an address: an instruction fetch is one more kind of it (R76). -/
inductive HostRequest
  | read (bytes : Nat)
  | write (bytes : Nat) (wdata : Word)
  | fetch (bytes : Nat)
  deriving DecidableEq, Repr

/-- An access as a host issues it, at a host address (R61). -/
structure HostAccess where
  origin : Origin
  addr : Nat
  req : HostRequest
  deriving DecidableEq, Repr

/-- What the outside does to DCF32, in port order (R60: one port and one reset input; R73). -/
inductive Event
  /-- An access reaches the port (R60). -/
  | access (a : Access)
  /-- A host issues an access at a host address (R61). -/
  | host (h : HostAccess)
  /-- The reset input is asserted between two accesses (R230). -/
  | resetAsserted
  /-- The reset input is asserted while the CTRL write of `v` is being served (R233). -/
  | resetDuringCommand (v : Word)
  /-- The reset input is released (R232). -/
  | resetReleased
  /-- Power is applied (R214, R231). -/
  | powerApplied
  deriving DecidableEq, Repr

/-- The eight registers of the window (R30). -/
inductive Reg
  | opa | opb | opc | ctrl | status | res0 | res1 | res2
  deriving DecidableEq, Repr

/-- A register's byte offset in the window (R30). -/
def Reg.off : Reg → Offset
  | .opa => 0x00#5
  | .opb => 0x04#5
  | .opc => 0x08#5
  | .ctrl => 0x0C#5
  | .status => 0x10#5
  | .res0 => 0x14#5
  | .res1 => 0x18#5
  | .res2 => 0x1C#5

end Sys2Proof.Machine
end

