-- ==== Sys2Proof/Machine/Lines.lean ====
section
/-! DEFINITION. The program notation of DCF32 as abstract syntax (spec R98, R99): values, sizes, basic lines (one bus
access each), pseudo-instructions and comments. -/

namespace Sys2Proof.Machine

/-- A name bound by a read (R98). The names `t` and `u` are those that one expansion of `deconstruct`, the k-th of a
program, keeps to itself (R99, 95_test_vectors.md part 3). -/
inductive Name
  | user (text : String)
  | t (k i : Nat)
  | u (k i : Nat)
  deriving DecidableEq, Repr

/-- The value a line writes (R98): a literal, a command word written by its mnemonic, or a name bound earlier. -/
inductive Value
  | lit (w : Word)
  | cmd (i : Instr)
  | name (n : Name)
  deriving DecidableEq, Repr

/-- The size suffix of an access: none or ".w", ".h", ".b" (R98). -/
inductive Size
  | word | half | byte
  deriving DecidableEq, Repr

/-- Where a line's access goes: a register by name, or a raw offset after "@" (R98). -/
inductive Target
  | reg (r : Reg)
  | raw (off : Offset)
  deriving DecidableEq, Repr

/-- A basic line: one bus access (R98). -/
inductive Basic
  | wr (size : Size) (target : Target) (value : Value)
  | rd (size : Size) (target : Target) (bind : Option Name)
  deriving DecidableEq, Repr

/-- A pseudo-instruction (R99). -/
inductive Pseudo
  | extract (x : Value)
  | decode (s e f : Value)
  | recompose (a b c : Value)
  | results (n0 n1 n2 : Name)
  | status (n : Name)
  | deconstruct (x : Value) (r : Name)
  deriving DecidableEq, Repr

/-- A line of a host program (R98). -/
inductive Line
  | access (b : Basic)
  | pseudo (p : Pseudo)
  | comment (text : String)
  deriving DecidableEq, Repr

end Sys2Proof.Machine
end

