-- ==== Sys2Proof/Machine/Expansion.lean ====
section
/-! DEFINITION. What the lines of a host program stand for (spec R98, R99): sizes and offsets of an access, and the
expansion of each pseudo-instruction into basic lines. -/

namespace Sys2Proof.Machine

/-- The access size in bytes of a size suffix (R98). -/
def Size.bytes : Size → Nat
  | .word => 4
  | .half => 2
  | .byte => 1

/-- The byte offset a target names (R98: `off(reg)` is the register's offset of R30). -/
def Target.off : Target → Offset
  | .reg r => r.off
  | .raw o => o

/-- A word write to a register. -/
def wrReg (r : Reg) (v : Value) : Basic := .wr .word (.reg r) v

/-- A word read of a register into a name. -/
def rdReg (r : Reg) (n : Name) : Basic := .rd .word (.reg r) (some n)

/-- `extract x` (R99). -/
def expandExtract (x : Value) : List Basic :=
  [wrReg .opa x, wrReg .ctrl (.cmd .extract)]

/-- `decode s, e, f` (R99). -/
def expandDecode (s e f : Value) : List Basic :=
  [wrReg .opa s, wrReg .opb e, wrReg .opc f, wrReg .ctrl (.cmd .decode)]

/-- `recompose a, b, c` (R99). -/
def expandRecompose (a b c : Value) : List Basic :=
  [wrReg .opa a, wrReg .opb b, wrReg .opc c, wrReg .ctrl (.cmd .recompose)]

/-- `results -> n0, n1, n2` (R99). -/
def expandResults (n0 n1 n2 : Name) : List Basic :=
  [rdReg .res0 n0, rdReg .res1 n1, rdReg .res2 n2]

/-- `status -> n` (R99). -/
def expandStatus (n : Name) : List Basic := [rdReg .status n]

/-- `deconstruct x -> r` (R99), the k-th of its program: t0..t2 and u0..u2 are names of this expansion alone. -/
def expandDeconstruct (k : Nat) (x : Value) (r : Name) : List Basic :=
  expandExtract x ++ expandResults (.t k 0) (.t k 1) (.t k 2)
    ++ expandDecode (.name (.t k 0)) (.name (.t k 1)) (.name (.t k 2))
    ++ expandResults (.u k 0) (.u k 1) (.u k 2)
    ++ expandRecompose (.name (.u k 0)) (.name (.u k 1)) (.name (.u k 2))
    ++ [rdReg .res0 r]

/-- The basic lines of a pseudo-instruction (R99), `k` counting the `deconstruct` lines before it. -/
def Pseudo.expand (k : Nat) : Pseudo → List Basic
  | .extract x => expandExtract x
  | .decode s e f => expandDecode s e f
  | .recompose a b c => expandRecompose a b c
  | .results n0 n1 n2 => expandResults n0 n1 n2
  | .status n => expandStatus n
  | .deconstruct x r => expandDeconstruct k x r

/-- How many `deconstruct` expansions a line uses up. -/
def Line.deconstructs : Line → Nat
  | .pseudo (.deconstruct _ _) => 1
  | _ => 0

/-- The basic lines of one line (R98): a comment is no access. -/
def Line.expand (k : Nat) : Line → List Basic
  | .access b => [b]
  | .pseudo p => p.expand k
  | .comment _ => []

/-- The basic lines of a program in order (R98, R99), its `deconstruct` lines counted from `k`. -/
def expandFrom (k : Nat) : List Line → List Basic
  | [] => []
  | l :: ls => l.expand k ++ expandFrom (k + l.deconstructs) ls

/-- The basic lines of a host program (R98, R99). -/
def expandProgram (ls : List Line) : List Basic := expandFrom 0 ls

end Sys2Proof.Machine
end

