-- ==== Sys2Proof/WellFormed.lean ====
section
/-! DEFINITION. Well-formedness, as decidable checks: of a command (spec R93, R96, R202), of an access (R63) and of a host
program (R98). -/

namespace Sys2Proof

/-- A command as syntax is always well formed: it has no operand, no immediate and no reserved field of its own (R90,
R94). -/
def Instr.wellFormed : Instr → Bool
  | .extract => true
  | .decode => true
  | .recompose => true

/-- A CTRL word is a legal command by its fields (R91, R96): RSVD is 0 and OP is not 3. -/
def commandWordWellFormed (v : Word) : Bool := rsvdField v == 0#30 && opField v != 3#2

namespace Machine

/-- An access is an aligned 32-bit word access, the only kind served (R63). -/
def wordAligned (off : Offset) (bytes : Nat) : Bool :=
  bytes == Config.registerBytes && off.toNat % Config.registerBytes == 0

/-- The size of an access in bytes (R60). -/
def Request.bytes : Request → Nat
  | .read n => n
  | .write n _ => n

/-- A well-formed access: an aligned word access (R63). -/
def Access.wellFormed (a : Access) : Bool := wordAligned a.off a.req.bytes

/-- A value names nothing, or a name bound so far (R98). -/
def Value.usable (names : List Name) : Value → Bool
  | .lit _ => true
  | .cmd _ => true
  | .name n => names.contains n

/-- The names bound after a line, from those bound before it: an aligned word read binds its name, and a read answered
ERR leaves its name unbound (R63, R98). -/
def Basic.boundAfter (names : List Name) : Basic → List Name
  | .rd size target (some n) =>
    if wordAligned target.off size.bytes then n :: names else names.filter (· != n)
  | .rd _ _ none => names
  | .wr _ _ _ => names

/-- A line uses no unbound name (R98). -/
def Basic.usable (names : List Name) : Basic → Bool
  | .wr _ _ v => v.usable names
  | .rd _ _ _ => true

/-- A sequence of basic lines uses no name that is unbound where it stands (R98). -/
def basicsWellFormed (names : List Name) : List Basic → Bool
  | [] => true
  | b :: bs => b.usable names && basicsWellFormed (b.boundAfter names) bs

/-- A host program is well formed: no line uses an unbound name (R98). -/
def programWellFormed (ls : List Line) : Bool := basicsWellFormed [] (expandProgram ls)

end Machine

end Sys2Proof
end

