-- ==== Sys2Proof/Decode.lean ====
section
/-! DEFINITION. The command decoder (spec R92, R93, R96), total on every 32-bit CTRL word, rejecting by name; after it the
encoder from the same opcode map; and the host's view of a table row's bits. -/

namespace Sys2Proof

/-- Why a CTRL word is no command (R96, R202). Raised by the decoder; the machine answers both with the illegal-command
outcome (R203), so neither stops it. -/
inductive DecodeReject
  /-- Bits 31:2 are not all 0. -/
  | reservedBits (rsvd : BitVec 30)
  /-- Bits 31:2 are 0 and OP is 3. -/
  | illegalOp
  deriving DecidableEq, Repr

/-- The decision of R92, on the whole 32-bit word. -/
def decode (v : Word) : Except DecodeReject Instr :=
  if v = 0x00000000#32 then .ok .extract
  else if v = 0x00000001#32 then .ok .decode
  else if v = 0x00000002#32 then .ok .recompose
  else if rsvdField v = 0#30 then .error .illegalOp
  else .error (.reservedBits (rsvdField v))

/-- The CTRL word of a command (R93). -/
def encode : Instr → Word
  | .extract => 0x00000000#32
  | .decode => 0x00000001#32
  | .recompose => 0x00000002#32

/-- The CTRL word whose bits are `w`, of which the table gives the first `nbits`: a command is one 32-bit word (R90) and
bit i of the bus word is bit i of the command (R68). -/
def tableWord (nbits w : Nat) : Word := BitVec.ofNat 32 (w % 2 ^ nbits)

/-- What the decoder reads from a row's bits. -/
def decodeTableWord (nbits w : Nat) : Option Instr :=
  match decode (tableWord nbits w) with
  | .ok i => some i
  | .error _ => none

end Sys2Proof
end

