-- ==== Sys2Proof/Machine/State.lean ====
section
/-! DEFINITION. The state of DCF32 (spec R30: OPA, OPB, OPC, RES0, RES1, RES2 and the 5 state bits of STATUS, 197 bits and
nothing else), the reset input's phase, and the model's own record of the port: the events to come, the responses given, and
a counter of free values. -/

namespace Sys2Proof.Machine

/-- The 5 state bits of STATUS (R37 to R41); bits 31:5 hold no state (R42). -/
structure Status where
  valid : Bool
  ill : Bool
  dom : Bool
  lastop : BitVec 2
  deriving DecidableEq, Repr

/-- Where DCF32 stands with power and reset (R230 to R232). -/
inductive Phase
  /-- Power is applied and no reset has come yet: the registers' contents are unspecified (R231). -/
  | unreset
  /-- The reset input is asserted: no access is served (R232). -/
  | inReset
  /-- The reset input is released: accesses are served (R232). -/
  | serving
  deriving DecidableEq, Repr

/-- The whole state. The first seven fields are DCF32's architectural state (R30). -/
structure State where
  /-- OPA (R33). -/
  opa : Word
  /-- OPB (R34). -/
  opb : Word
  /-- OPC (R35). -/
  opc : Word
  /-- STATUS (R37). -/
  status : Status
  /-- RES0 (R43). -/
  res0 : Word
  /-- RES1 (R44). -/
  res1 : Word
  /-- RES2 (R45). -/
  res2 : Word
  /-- The reset input and whether a reset has come since power-up (R230 to R232; the form is the model's, DESIGN CHOICE,
  assumption 2). -/
  phase : Phase
  /-- THE MODEL'S OWN: what is still to arrive, in port order (R73; DESIGN CHOICE, assumption 1). -/
  port : List Event
  /-- THE MODEL'S OWN: the responses given so far, the newest first (R60; DESIGN CHOICE, assumption 9). -/
  answers : List Response
  /-- THE MODEL'S OWN: how many free values have been used (DESIGN CHOICE, assumption 15). -/
  freeCount : Nat
  deriving DecidableEq, Repr

/-- Why a run can stop with a fault. No step of DCF32 ends in one: it has no exceptions and nothing in it is stuck
(R200). -/
inductive Fault
  /-- Raised by the run of a host program (Machine/HostProgram.lean) whose line uses an unbound name: the program is ill
  formed (R98). Safe: nothing more is claimed of such a run. -/
  | unboundName
  deriving DecidableEq, Repr

/-- Why a step has no meaning. -/
inductive Refusal
  /-- Raised by exec for a command that has no meaning yet; none is left. Safe. -/
  | notModelled (mnemonic : String)
  /-- Raised by an access before the first reset after power-up: no run starts there (R231, assumption 3). Safe. -/
  | accessBeforeReset
  /-- Raised by an access while reset is asserted: the platform must not issue one and a model gives it no step (R232,
  assumption 4). Safe. -/
  | accessDuringReset
  /-- Raised by a host access outside the window: it never reaches DCF32 and what it does is the platform's (R61,
  assumption 7). Safe. -/
  | outsideWindow
  deriving DecidableEq, Repr

/-- STATUS after reset: every field 0 (R230). -/
def Status.reset : Status := { valid := false, ill := false, dom := false, lastop := 0#2 }

/-- The machine right after reset (R230), the reset input released, nothing arrived at the port and nothing answered (the
values of the model's own fields: DESIGN CHOICE, assumption 15). -/
def State.reset : State :=
  { opa := 0x00000000#32, opb := 0x00000000#32, opc := 0x00000000#32
    status := Status.reset
    res0 := 0x00000000#32, res1 := 0x00000000#32, res2 := 0x00000000#32
    phase := .serving
    port := [], answers := [], freeCount := 0 }

end Sys2Proof.Machine
end

