-- ==== Sys2Proof/Machine/Operands.lean ====
section
/-! DEFINITION. Operand forms (spec R10, R94): the fields of a binary32 pattern, and the roles of the operand registers. -/

namespace Sys2Proof.Machine

/-- Bit 31, the sign, as a 32-bit value (R10, R110). -/
def signField (x : Word) : Word := (x >>> 31) &&& 0x1#32

/-- Bits 30:23, the biased exponent, as a 32-bit value (R10, R110). -/
def expField (x : Word) : Word := (x >>> 23) &&& 0xFF#32

/-- Bits 22:0, the fraction, as a 32-bit value (R10, R110). -/
def fracField (x : Word) : Word := x &&& 0x7FFFFF#32

/-- Bit 31 as a truth value: the pattern's sign is minus (R10). -/
def isNeg (x : Word) : Bool := x.getLsbD 31

/-- EXTRACT's RawBits, RECOMPOSE's sign_value, DECODE's raw sign: OPA as it stands (R33, R94). -/
def State.operandA (s : State) : Word := s.opa

/-- RECOMPOSE's exponent_value, DECODE's raw exponent: OPB as it stands (R34, R94). -/
def State.operandB (s : State) : Word := s.opb

/-- RECOMPOSE's mantissa_value, DECODE's raw fraction: OPC as it stands (R35, R94). -/
def State.operandC (s : State) : Word := s.opc

end Sys2Proof.Machine
end

