-- ==== Sys2Proof/Machine/Flags.lean ====
section
/-! DEFINITION. Every field of STATUS (spec R37 to R42, R50): what a legal command and an illegal one write, DECODE's domain
test, and the word a read of STATUS returns. -/

namespace Sys2Proof.Machine

/-- STATUS after a legal command: VALID = 1, ILL = 0, DOM and LASTOP as the command gives them (R38 to R41). -/
def Status.legal (op : BitVec 2) (dom : Bool) : Status :=
  { valid := true, ill := false, dom := dom, lastop := op }

/-- STATUS after an illegal command: VALID = 0, ILL = 1, DOM = 0, LASTOP = v[1:0] (R203). -/
def Status.illegal (op : BitVec 2) : Status :=
  { valid := false, ill := true, dom := false, lastop := op }

/-- DECODE's domain test on its raw sign, exponent and fraction, compared as unsigned values (R139). -/
def outOfDomain (s e f : Word) : Bool :=
  decide (s > 1#32) || decide (e > 255#32) || decide (f > 0x7FFFFF#32)

/-- The word a read of STATUS returns (R64); bits 31:5 are 0 (R42). -/
def Status.word (t : Status) : Word :=
  (t.lastop.setWidth 32 <<< 3) ||| (bitWord t.dom <<< 2) ||| (bitWord t.ill <<< 1) ||| bitWord t.valid

end Sys2Proof.Machine
end

