-- ==== Sys2Proof/Machine/Ops.lean ====
section
/-! DEFINITION. The named operations over the registers and the port (spec R61, R63, R64, R203, R230 to R233): selecting and
reading a register, the state change of a command, the illegal-command outcome, reset and power-up, and recording a
response. DCF32 takes no exception and returns from none (R200, R207): its error outcomes are the ERR response and the
illegal-command outcome, each ONE operation here. -/

namespace Sys2Proof.Machine

/-- The register at a word offset of the window (R30, R64); no register starts at any other offset. -/
def Reg.atOffset (off : Offset) : Option Reg :=
  match off.toNat with
  | 0x00 => some .opa
  | 0x04 => some .opb
  | 0x08 => some .opc
  | 0x0C => some .ctrl
  | 0x10 => some .status
  | 0x14 => some .res0
  | 0x18 => some .res1
  | 0x1C => some .res2
  | _ => none

/-- The register an access of `bytes` bytes at `off` reaches: none unless it is an aligned word access (R63). -/
def selectReg (off : Offset) (bytes : Nat) : Option Reg :=
  if bytes ≠ Config.registerBytes ∨ off.toNat % Config.registerBytes ≠ 0 then none else Reg.atOffset off

/-- The value a word read of a register returns (R64): CTRL reads 0 (R36). -/
def State.readReg (s : State) : Reg → Word
  | .opa => s.opa
  | .opb => s.opb
  | .opc => s.opc
  | .ctrl => 0x00000000#32
  | .status => s.status.word
  | .res0 => s.res0
  | .res1 => s.res1
  | .res2 => s.res2

/-- OPA takes a value (R65): that register alone. -/
def State.setOpa (s : State) (v : Word) : State := { s with opa := v }

/-- OPB takes a value (R65): that register alone. -/
def State.setOpb (s : State) (v : Word) : State := { s with opb := v }

/-- OPC takes a value (R65): that register alone. -/
def State.setOpc (s : State) (v : Word) : State := { s with opc := v }

/-- BusRead(off, n) (R64): the response, with no change of state. -/
def busRead (off : Offset) (bytes : Nat) (s : State) : Response :=
  match selectReg off bytes with
  | some r => .okRead (s.readReg r)
  | none => .err

/-- Record the response that ends an access (R60). -/
def State.answer (s : State) (r : Response) : State := { s with answers := r :: s.answers }

/-- A bus error: ERR, and no other change (R204). -/
def State.busError (s : State) : State := s.answer .err

/-- Record a response on the state an outcome goes on with. -/
def answering (r : Response) : Host.Outcome State Fault Refusal → Host.Outcome State Fault Refusal
  | .next t => .next (t.answer r)
  | .fault f => .fault f
  | .refused x => .refused x

/-- The one state change of a command (R70): RES0, RES1, RES2 and STATUS at once, and nothing else (R92). -/
def State.complete (s : State) (r0 r1 r2 : Word) (st : Status) : State :=
  { s with res0 := r0, res1 := r1, res2 := r2, status := st }

/-- DoIllegal(v) (R203). -/
def State.illegalCommand (s : State) (v : Word) : State :=
  s.complete 0x00000000#32 0x00000000#32 0x00000000#32 (Status.illegal (opField v))

/-- Every piece of DCF32's state at its reset value (R230). -/
def State.clear (s : State) : State :=
  { s with
    opa := 0x00000000#32, opb := 0x00000000#32, opc := 0x00000000#32
    status := Status.reset
    res0 := 0x00000000#32, res1 := 0x00000000#32, res2 := 0x00000000#32 }

/-- The reset input is asserted (R230). -/
def State.assertReset (s : State) : State := { s.clear with phase := .inReset }

/-- The reset input is released (R232): accesses are served from then on. Releasing an input that is not asserted does
nothing (DESIGN CHOICE, assumption 2). -/
def State.releaseReset (s : State) : State :=
  match s.phase with
  | .inReset => { s with phase := .serving }
  | .unreset => s
  | .serving => s

/-- Record the response to the CTRL write that a reset cut (R233, assumption 5): none, OK or ERR. -/
def State.cutAnswer (s : State) : Option Bool → State
  | none => s
  | some true => s.answer .okWrite
  | some false => s.answer .err

/-- Reset is asserted while a CTRL write is being served (R233): the reset state, whether or not the command took effect
first, and a response the spec leaves open. -/
def State.assertResetDuringCommand (s : State) : State :=
  let t := s.assertReset.cutAnswer (Config.answerCutByReset s.freeCount)
  { t with freeCount := s.freeCount + 1 }

/-- Power is applied (R214, R231): the contents of the 197 bits are free values, and no access is served before a reset
(assumption 3). -/
def State.powerUp (s : State) : State :=
  let w := fun i => Config.powerUpWord (s.freeCount + i)
  { s with
    opa := w 0, opb := w 1, opc := w 2, res0 := w 3, res1 := w 4, res2 := w 5
    status :=
      { valid := (w 6).getLsbD 0, ill := (w 6).getLsbD 1, dom := (w 6).getLsbD 2, lastop := (w 6).extractLsb' 3 2 }
    phase := .unreset
    freeCount := s.freeCount + 7 }

/-- The offset at which a host address lies in a window with the given base (R61); none outside it. -/
def windowOffset (base addr : Nat) : Option Offset :=
  if base ≤ addr ∧ addr < base + Config.windowBytes then some (BitVec.ofNat 5 (addr - base)) else none

/-- What a host's access is on the port: a fetch cannot be told from a read (R76). -/
def HostRequest.atPort : HostRequest → Request
  | .read n => .read n
  | .write n v => .write n v
  | .fetch n => .read n

end Sys2Proof.Machine
end

