-- ==== Sys2Proof/Machine/Extract.lean ====
section
/-! DEFINITION. EXTRACT, the Bit Extractor (spec R110 to R115). -/

namespace Sys2Proof.Machine

/-- DoExtract() (R110). -/
def execExtract (s : State) : Host.Outcome State Fault Refusal :=
  .next (s.complete (signField s.operandA) (expField s.operandA) (fracField s.operandA) (Status.legal 0#2 false))

end Sys2Proof.Machine
end

