-- ==== Sys2Proof/Machine/Binary32.lean ====
section
/-! DEFINITION. The binary32 primitives (spec R10 to R17): classes, exact values, rounding to nearest even, addition of
non-negative finite values (R134) and multiplication (R171). An exact magnitude is kept as an integer times a power of two,
so that a magnitude of any size is computed without being written out. -/

namespace Sys2Proof.Machine

/-- +1.0 (R14). -/
def posOne : Word := 0x3F800000#32
/-- −1.0 (R14). -/
def negOne : Word := 0xBF800000#32
/-- +0.0 (R14). -/
def posZero : Word := 0x00000000#32
/-- +infinity (R14). -/
def posInf : Word := 0x7F800000#32
/-- The one NaN DCF32 gives (R14, R15). -/
def canonNaN : Word := 0x7FC00000#32

/-- The classes of binary32 patterns (R11). -/
inductive Class32
  | nan | infinity | zero | subnormal | normal
  deriving DecidableEq, Repr

/-- Class32(x) (R11). -/
def classify (x : Word) : Class32 :=
  if expField x = 255#32 then (if fracField x = 0#32 then .infinity else .nan)
  else if expField x = 0#32 then (if fracField x = 0#32 then .zero else .subnormal)
  else .normal

/-- An exact magnitude: `sig * RADIX ^ exp` (the integer form is DEDUCED from R13, assumption 11). -/
structure Mag where
  sig : Nat
  exp : Int
  deriving DecidableEq, Repr

/-- |Val32(x)| of a finite pattern as m * 2^q (R12). -/
def magnitude (x : Word) : Mag :=
  if expField x = 0#32 then { sig := (fracField x).toNat, exp := -149 }
  else { sig := 2 ^ 23 + (fracField x).toNat, exp := ((expField x).toNat : Int) - 150 }

/-- The exact sum of two magnitudes. -/
def Mag.add (a b : Mag) : Mag :=
  let e := min a.exp b.exp
  { sig := a.sig * 2 ^ (a.exp - e).toNat + b.sig * 2 ^ (b.exp - e).toNat, exp := e }

/-- The exact product of two magnitudes (R171: `mx * my * 2^(qx + qy)`). -/
def Mag.mul (a b : Mag) : Mag := { sig := a.sig * b.sig, exp := a.exp + b.exp }

/-- RNE(m / 2^d): the nearest integer, a tie going to the even one (R13). -/
def rneDiv (m d : Nat) : Nat :=
  let n := m / 2 ^ d
  let twice := 2 * (m % 2 ^ d)
  if twice < 2 ^ d then n
  else if twice > 2 ^ d then n + 1
  else if n % 2 = 0 then n else n + 1

/-- RNE(m * 2^k) (R13). -/
def rneScale (m : Nat) (k : Int) : Nat :=
  if 0 ≤ k then m * 2 ^ k.toNat else rneDiv m (-k).toNat

/-- `s << 31` (R13). -/
def signBit (neg : Bool) : Word := if neg then 0x80000000#32 else 0x00000000#32

/-- `(s << 31) | (E << 23) | F` (R10, R13). -/
def packFields (neg : Bool) (e f : Nat) : Word :=
  signBit neg ||| (BitVec.ofNat 32 e <<< 23) ||| BitVec.ofNat 32 f

/-- The pattern of a kept integer significand `m` below 2^24 with last-bit weight 2^t (R13, after the carry is seen to). -/
def packKept (neg : Bool) (m : Nat) (t : Int) : Word :=
  if m = 0 then signBit neg
  else if 2 ^ 23 ≤ m then
    if 255 ≤ t + 150 then signBit neg ||| posInf
    else packFields neg (t + 150).toNat (m - 2 ^ 23)
  else signBit neg ||| BitVec.ofNat 32 m

/-- Round32(s, r) (R13): nearest, ties to even (R16), overflow to infinity, gradual underflow (R17). -/
def round32 (neg : Bool) (r : Mag) : Word :=
  if r.sig = 0 then signBit neg
  else
    let q : Int := (Nat.log2 r.sig : Int) + r.exp
    let t : Int := max (q - 23) (-149)
    let m := rneScale r.sig (r.exp - t)
    if m = 2 ^ 24 then packKept neg (2 ^ 23) (t + 1) else packKept neg m t

/-- Binary32 addition of two non-negative finite values: Round32 of their exact sum (R134). -/
def addNonneg (x y : Word) : Word := round32 false ((magnitude x).add (magnitude y))

/-- FMul32(x, y) (R171). -/
def fmul32 (x y : Word) : Word :=
  if classify x = .nan ∨ classify y = .nan then canonNaN
  else
    let neg := isNeg x ^^ isNeg y
    if (classify x = .infinity ∧ classify y = .zero) ∨ (classify x = .zero ∧ classify y = .infinity) then canonNaN
    else if classify x = .infinity ∨ classify y = .infinity then signBit neg ||| posInf
    else if classify x = .zero ∨ classify y = .zero then signBit neg
    else round32 neg ((magnitude x).mul (magnitude y))

end Sys2Proof.Machine
end

