-- ==== Sys2Proof/Machine/FieldDecoder.lean ====
section
/-! DEFINITION. DECODE, the Field Decoder (spec R130 to R142): the sign by parity, the rebased exponent's exact power rounded
once, and the mantissa accumulator. -/

namespace Sys2Proof.Machine

/-- SignDecode(s) (R131), on every 32-bit s by the parity of s. -/
def signDecode (s : Word) : Word := if s.getLsbD 0 then negOne else posOne

/-- The signed exponent k = e − BIAS, exact (R132). -/
def rebias (e : Word) : Int := (e.toNat : Int) - (Config.bias : Int)

/-- ExpDecode(e) = Round32(0, RADIX^k) (R132). -/
def expDecode (e : Word) : Word := round32 false { sig := 1, exp := rebias e }

/-- The binary32 pattern of the weight 2^(i−23) of fraction bit i (R134). -/
def weight (i : Nat) : Word := BitVec.ofNat 32 (i + 104) <<< 23

/-- One iteration of the mantissa accumulator (R134). -/
def accumulate (f acc : Word) (i : Nat) : Word := if f.getLsbD i then addNonneg acc (weight i) else acc

/-- The accumulator after the bits 0..n−1, in ascending order (R134). -/
def mantAccumulator (f : Word) (n : Nat) : Word := (List.range n).foldl (accumulate f) posZero

/-- MantDecode(f) (R134). -/
def mantDecode (f : Word) : Word := mantAccumulator f Config.mantissaIterations

/-- DoDecode() (R130): the operands are read whole, and a value outside its field's domain sets DOM and still gives results
(R139). -/
def execDecode (s : State) : Host.Outcome State Fault Refusal :=
  .next (s.complete (signDecode s.operandA) (expDecode s.operandB) (mantDecode s.operandC)
    (Status.legal 1#2 (outOfDomain s.operandA s.operandB s.operandC)))

end Sys2Proof.Machine
end

