-- ==== Sys2Proof/Machine/Recompose.lean ====
section
/-! DEFINITION. RECOMPOSE, the Recomposer (spec R170 to R176). -/

namespace Sys2Proof.Machine

/-- The product of three patterns from left to right, the first product rounded before the second multiplication (R172). -/
def product3 (a b c : Word) : Word := fmul32 (fmul32 a b) c

/-- DoRecompose() (R170). -/
def execRecompose (s : State) : Host.Outcome State Fault Refusal :=
  .next (s.complete (product3 s.operandA s.operandB s.operandC) 0x00000000#32 0x00000000#32 (Status.legal 2#2 false))

end Sys2Proof.Machine
end

