-- ==== Sys2Proof/Machine/Dispatch.lean ====
section
/-! DEFINITION. One arm per command (spec R92). -/

namespace Sys2Proof.Machine

def exec (i : Instr) (s : State) : Host.Outcome State Fault Refusal :=
  match i with
  | .extract => Sys2Proof.Machine.execExtract s
  | .decode => Sys2Proof.Machine.execDecode s
  | .recompose => Sys2Proof.Machine.execRecompose s

end Sys2Proof.Machine
end

