-- ==== Sys2Proof/Machine/Bus.lean ====
section
/-! DEFINITION. Serving what arrives at the port (spec R61, R64, R65, R92, R230 to R233). -/

namespace Sys2Proof.Machine

/-- Command(v) (R92): a legal word runs its command, any other word has the illegal-command outcome (R203). -/
def command (v : Word) (s : State) : Host.Outcome State Fault Refusal :=
  match decode v with
  | .ok i => exec i s
  | .error _ => .next (s.illegalCommand v)

/-- BusWrite(off, n, v) (R65) with its response recorded; a command answers OK after its state change (R70). -/
def busWrite (off : Offset) (bytes : Nat) (v : Word) (s : State) : Host.Outcome State Fault Refusal :=
  match selectReg off bytes with
  | some .opa => .next ((s.setOpa v).answer .okWrite)
  | some .opb => .next ((s.setOpb v).answer .okWrite)
  | some .opc => .next ((s.setOpc v).answer .okWrite)
  | some .ctrl => answering .okWrite (command v s)
  | some .status => .next s.busError
  | some .res0 => .next s.busError
  | some .res1 => .next s.busError
  | some .res2 => .next s.busError
  | none => .next s.busError

/-- Serve one access (R60, R64, R65). -/
def serve (a : Access) (s : State) : Host.Outcome State Fault Refusal :=
  match a.req with
  | .read n => .next (s.answer (busRead a.off n s))
  | .write n v => busWrite a.off n v s

/-- An access arrives: it is served unless reset is asserted (R232) or has not come yet (R231). -/
def arrive (a : Access) (s : State) : Host.Outcome State Fault Refusal :=
  match s.phase with
  | .serving => serve a s
  | .inReset => .refused .accessDuringReset
  | .unreset => .refused .accessBeforeReset

/-- A host's access at a host address, for a window at `base`: it reaches the port when the address lies in the window
(R61), and nothing of its origin does (R209). -/
def arriveAt (base : Nat) (h : HostAccess) (s : State) : Host.Outcome State Fault Refusal :=
  match windowOffset base h.addr with
  | some off => arrive { off := off, req := h.req.atPort } s
  | none => .refused .outsideWindow

/-- Reset cuts a CTRL write that is being served (R233); while no access can be served there is none to cut
(DEDUCED, assumption 5). -/
def cutCommand (s : State) : Host.Outcome State Fault Refusal :=
  match s.phase with
  | .serving => .next s.assertResetDuringCommand
  | .inReset => .refused .accessDuringReset
  | .unreset => .refused .accessBeforeReset

/-- One event at DCF32's port or reset input. -/
def handle (e : Event) (s : State) : Host.Outcome State Fault Refusal :=
  match e with
  | .access a => arrive a s
  | .host h => arriveAt Config.fdBase h s
  | .resetAsserted => .next s.assertReset
  | .resetDuringCommand _ => cutCommand s
  | .resetReleased => .next s.releaseReset
  | .powerApplied => .next s.powerUp

/-- Handle the next event in port order (R73); with none to come DCF32 keeps its state (R214; DEDUCED,
assumption 1). -/
def handleNext (s : State) : Host.Outcome State Fault Refusal :=
  match s.port with
  | [] => .next s
  | e :: rest => handle e { s with port := rest }

/-- The access that issues a command: an aligned word write of `v` to CTRL (R90). -/
def ctrlWrite (v : Word) : Access := { off := Reg.ctrl.off, req := .write Config.registerBytes v }

end Sys2Proof.Machine
end

