-- ==== Sys2Proof/Machine/Step.lean ====
section
/-! DEFINITION. The step: DCF32 handles the next event in port order (spec R73). -/

namespace Sys2Proof.Machine

/-- One step. -/
def step (s : State) : Host.Outcome State Fault Refusal := handleNext s

/-- `s` with the CTRL write of a table row's word as the next access to arrive, and reset released so that it is served: DCF32
fetches nothing, and its commands come as writes to CTRL (R31, R90; DESIGN CHOICE, assumption 8). -/
def State.withFetchWord (s : State) (nbits w : Nat) : State :=
  { s with phase := .serving, port := .access (ctrlWrite (tableWord nbits w)) :: s.port }

end Sys2Proof.Machine
end

