-- ==== Sys2Proof/Machine/HostProgram.lean ====
section
/-! DEFINITION. A host program's run (spec R98 to R101): each basic line is one bus access, served by the machine's own step;
a read answered OK binds its name, and a later line may use it. -/

namespace Sys2Proof.Machine

/-- A run's state (R101): DCF32's state and the names bound so far. -/
structure HostState where
  machine : State
  names : List (Name × Word)
  deriving DecidableEq, Repr

/-- The value bound to a name, if it is bound. -/
def lookupName (names : List (Name × Word)) (n : Name) : Option Word :=
  match names with
  | [] => none
  | (m, w) :: rest => if m = n then some w else lookupName rest n

/-- The names without one of them. -/
def unbindName (names : List (Name × Word)) (n : Name) : List (Name × Word) :=
  names.filter (fun p => p.1 != n)

/-- A value's word (R93, R98): none for an unbound name. -/
def Value.word (names : List (Name × Word)) : Value → Option Word
  | .lit w => some w
  | .cmd i => some (encode i)
  | .name n => lookupName names n

/-- The names after a read with the given response (R98): OK binds, ERR leaves unbound, a name bound before too (DEDUCED,
assumption 13). -/
def bindRead (names : List (Name × Word)) (n : Name) : Option Response → List (Name × Word)
  | some (.okRead d) => (n, d) :: unbindName names n
  | some .okWrite => unbindName names n
  | some .err => unbindName names n
  | none => unbindName names n

/-- The access of a basic line (R100): none when its value is an unbound name. -/
def Basic.access (names : List (Name × Word)) : Basic → Option Access
  | .wr size target v => (v.word names).map fun w => { off := target.off, req := .write size.bytes w }
  | .rd size target _ => some { off := target.off, req := .read size.bytes }

/-- A host's line reaches the port: its access is the next to be served. Which events of others come
before it is the turn that `performTurn` is given (assumption 18). -/
def State.issue (s : State) (a : Access) : State := { s with port := .access a :: s.port }

/-- The names after a basic line whose access left the machine in state `t`. -/
def Basic.namesAfter (names : List (Name × Word)) (t : State) : Basic → List (Name × Word)
  | .wr _ _ _ => names
  | .rd _ _ none => names
  | .rd _ _ (some n) => bindRead names n t.answers.head?

/-- Perform one basic line when its turn has come (R98): its access is the next to be served, and one step serves it. A line's
own CTRL write is always served whole: R98 to R101 do not say whether a reset can cut it, as R233 lets a reset cut a command,
and in a program's run none does (DESIGN CHOICE, assumption 19). -/
def performBasic (b : Basic) (h : HostState) : Host.Outcome HostState Fault Refusal :=
  match b.access h.names with
  | none => .fault .unboundName
  | some a =>
    match step (h.machine.issue a) with
    | .next t => .next { machine := t, names := b.namesAfter h.names t }
    | .fault f => .fault f
    | .refused r => .refused r

/-- The next `k` events at the port are handled: what other masters and the platform do before this host's next line reaches
the port (R73). -/
def othersFirst : Nat → State → Host.Outcome State Fault Refusal
  | 0, s => .next s
  | k + 1, s =>
    match step s with
    | .next t => othersFirst k t
    | .fault f => .fault f
    | .refused r => .refused r

/-- One line of a program when `k` events of others come before it in port order (R73, R101). -/
def performTurn (k : Nat) (b : Basic) (h : HostState) : Host.Outcome HostState Fault Refusal :=
  match othersFirst k h.machine with
  | .next t => performBasic b { h with machine := t }
  | .fault f => .fault f
  | .refused r => .refused r

/-- Perform basic lines in order (R98), `turns` saying line by line how many events of others come before it; where it says
nothing, none does. -/
def performBasics : List Nat → List Basic → HostState → Host.Outcome HostState Fault Refusal
  | _, [], h => .next h
  | turns, b :: bs, h =>
    match performTurn (turns.headD 0) b h with
    | .next h' => performBasics turns.tail bs h'
    | .fault f => .fault f
    | .refused r => .refused r

/-- The run of a host program (R98 to R101), ended by the response to its last access. R101 does not say whether another
master touches DCF32 during the run, and R73 admits every interleaving: `turns` is that choice, an argument of the run (the
form is the model's, DESIGN CHOICE, assumption 18). With `turns` empty no access of others comes between the lines. -/
def runProgram (turns : List Nat) (ls : List Line) (s : State) : Host.Outcome HostState Fault Refusal :=
  performBasics turns (expandProgram ls) { machine := s, names := [] }

/-- The port order of a run (R73): the accesses of its lines, each after as many of the pending events as its turn says, and
then the events that are left. -/
def portOrder : List Nat → List Access → List Event → List Event
  | _, [], pending => pending
  | turns, a :: rest, pending =>
    pending.take (turns.headD 0) ++ .access a :: portOrder turns.tail rest (pending.drop (turns.headD 0))

end Sys2Proof.Machine
end

