-- ==== Sys2Proof/Machine/Platform.lean ====
section
/-! DEFINITION. A platform with several DCF32s (spec R61, R71, R212): each at a base of its own with a state of its own. -/

namespace Sys2Proof.Machine

/-- One DCF32 on a platform: its FD_BASE and its state (R212). -/
structure Placed where
  base : Nat
  state : State
  deriving DecidableEq, Repr

/-- A host's access on the platform: the DCF32 whose window holds the address serves it, and no other is touched (R61,
R212). Where windows overlapped, which R61 does not admit, the first of them would answer (DESIGN CHOICE, assumption 16). -/
def platformAccess (h : HostAccess) : List Placed → Host.Outcome (List Placed) Fault Refusal
  | [] => .refused .outsideWindow
  | p :: ps =>
    match windowOffset p.base h.addr with
    | some _ =>
      match arriveAt p.base h p.state with
      | .next t => .next ({ p with state := t } :: ps)
      | .fault f => .fault f
      | .refused r => .refused r
    | none =>
      match platformAccess h ps with
      | .next qs => .next (p :: qs)
      | .fault f => .fault f
      | .refused r => .refused r

/-- The bases are multiples of 32 and no two windows overlap (R61). -/
def platformWellFormed (bases : List Nat) : Bool :=
  bases.all (fun b => b % Config.windowBytes == 0) && decide bases.Nodup

end Sys2Proof.Machine
end

