-- ==== Sys2Proof/Machine/Exact.lean ====
section
/-! DEFINITION. The spec's rational reading of binary32, as the spec writes it: Val32 (spec R12), RNE and Round32 of any exact
rational (R13). The meanings use the integer forms of Machine/Binary32.lean; that the two agree is stated, and is what these
definitions are for. -/

namespace Sys2Proof.Machine

/-- The rational a magnitude stands for. -/
def Mag.value (r : Mag) : ℚ := r.sig * (Config.radix : ℚ) ^ r.exp

/-- Val32(x) of a pattern of class zero, subnormal or normal (R12). -/
def val32 (x : Word) : ℚ :=
  let sign : ℚ := if isNeg x then -1 else 1
  let e := (expField x).toNat
  let f := (fracField x).toNat
  if e = 0 then sign * f * 2 ^ (-149 : ℤ) else sign * (2 ^ 23 + f) * 2 ^ ((e : ℤ) - 150)

/-- RNE(y) of a rational y ≥ 0: the nearest integer, the even one when y lies halfway (R13). -/
def rne (y : ℚ) : ℕ :=
  let n := ⌊y⌋₊
  let rest := y - n
  if rest < 1 / 2 then n
  else if rest > 1 / 2 then n + 1
  else if n % 2 = 0 then n else n + 1

/-- Round32(s, r) of an exact rational r ≥ 0, line by line as R13 has it. -/
def round32Exact (neg : Bool) (r : ℚ) : Word :=
  if r = 0 then signBit neg
  else
    let q := Int.log 2 r
    let t₀ := max (q - 23) (-149)
    let m₀ := rne (r / 2 ^ t₀)
    let m := if m₀ = 2 ^ 24 then 2 ^ 23 else m₀
    let t := if m₀ = 2 ^ 24 then t₀ + 1 else t₀
    if m = 0 then signBit neg
    else if m ≥ 2 ^ 23 then
      if t + 150 ≥ 255 then signBit neg ||| posInf
      else packFields neg (t + 150).toNat (m - 2 ^ 23)
    else signBit neg ||| BitVec.ofNat 32 m

end Sys2Proof.Machine
end

