-- ==== Sys2Proof/Safety.lean ====
section
/-! DEFINITION. What claims about runs are stated in: when two states hold the same registers, when RES0..RES2 and STATUS fit
together (spec R15, R38 to R45, R50, R113, R141), the invariant every step keeps, and the platform's duties (R61, R231, R232,
R235). -/

namespace Sys2Proof.Machine

/-- Two states hold the same 197 bits (R30). -/
structure SameRegisters (s t : State) : Prop where
  opa : s.opa = t.opa
  opb : s.opb = t.opb
  opc : s.opc = t.opc
  status : s.status = t.status
  res0 : s.res0 = t.res0
  res1 : s.res1 = t.res1
  res2 : s.res2 = t.res2

/-- The result registers hold what an EXTRACT can leave (R113). -/
structure ExtractResults (r0 r1 r2 : Word) : Prop where
  sign : r0.toNat ≤ 1
  exponent : r1.toNat ≤ 255
  fraction : r2.toNat ≤ 2 ^ 23 - 1

/-- The result registers hold what a DECODE can leave (R141). -/
structure DecodeResults (r0 r1 r2 : Word) : Prop where
  sign : r0 = 0x3F800000#32 ∨ r0 = 0xBF800000#32
  exponent : r1 = 0x00400000#32 ∨ (∃ e : Nat, 1 ≤ e ∧ e ≤ 254 ∧ r1 = BitVec.ofNat 32 e <<< 23) ∨ r1 = 0x7F800000#32
  fraction : r2 = 0x00000000#32 ∨
    (isNeg r2 = false ∧ classify r2 = .normal ∧
      ∃ g : Nat, 1 ≤ g ∧ g ≤ 2 ^ 23 - 1 ∧ val32 r2 = (g : ℚ) * 2 ^ (-23 : ℤ))

/-- The result registers hold what a RECOMPOSE can leave (R15, R44, R45). -/
structure RecomposeResults (r0 r1 r2 : Word) : Prop where
  nan : classify r0 = .nan → r0 = 0x7FC00000#32
  res1 : r1 = 0x00000000#32
  res2 : r2 = 0x00000000#32

/-- STATUS and the result registers fit together (R38 to R42, R50): they are what the last command, or the reset, left. -/
structure Consistent (s : State) : Prop where
  /-- While VALID is 0 the results hold 0 (R38). -/
  zeroWhileInvalid : s.status.valid = false → s.res0 = 0#32 ∧ s.res1 = 0#32 ∧ s.res2 = 0#32
  /-- ILL marks an illegal command, which clears VALID (R39). -/
  illInvalid : s.status.ill = true → s.status.valid = false
  /-- With VALID and ILL 0 no command has run, and STATUS is as reset left it (R41). -/
  noCommand : s.status.valid = false → s.status.ill = false → s.status = Status.reset
  /-- Only DECODE sets DOM (R40, R205). -/
  domDecode : s.status.dom = true → s.status.valid = true ∧ s.status.lastop = 1#2
  /-- A legal command's OP is 0, 1 or 2 (R38). -/
  legalOp : s.status.valid = true → s.status.lastop ≠ 3#2
  extract : s.status.valid = true → s.status.lastop = 0#2 → ExtractResults s.res0 s.res1 s.res2
  decode : s.status.valid = true → s.status.lastop = 1#2 → DecodeResults s.res0 s.res1 s.res2
  recompose : s.status.valid = true → s.status.lastop = 2#2 → RecomposeResults s.res0 s.res1 s.res2

/-- The invariant: while reset is asserted the registers hold their reset values (R230), and from a reset on STATUS and the
results fit together. Before the first reset nothing is said (R231). -/
structure Inv (s : State) : Prop where
  inReset : s.phase = .inReset → SameRegisters s State.reset
  consistent : s.phase ≠ .unreset → Consistent s

/-- The phase an event leaves (R230 to R232). -/
def phaseAfter (p : Phase) : Event → Phase
  | .access _ => p
  | .host _ => p
  | .resetAsserted => .inReset
  | .resetDuringCommand _ => .inReset
  | .resetReleased => match p with
    | .inReset => .serving
    | .unreset => .unreset
    | .serving => .serving
  | .powerApplied => .unreset

/-- An event is an access that DCF32 serves: one at the port, or a host's in the window (R61). -/
def servedAccess : Event → Prop
  | .access _ => True
  | .host h => Config.fdBase ≤ h.addr ∧ h.addr < Config.fdBase + Config.windowBytes
  | _ => False

/-- The platform may let an event happen in a phase: no access, and no command to be cut, before the first reset or while
reset is asserted (R231, R232), and no host access from outside the window reaches DCF32 (R61). -/
def permitted (p : Phase) : Event → Prop
  | .access _ => p = .serving
  | .host h => p = .serving ∧ Config.fdBase ≤ h.addr ∧ h.addr < Config.fdBase + Config.windowBytes
  | .resetAsserted => True
  | .resetDuringCommand _ => p = .serving
  | .resetReleased => True
  | .powerApplied => True

/-- The platform keeps its duties over a sequence of events (R232, R235). -/
def dutiesKept (p : Phase) : List Event → Prop
  | [] => True
  | e :: es => permitted p e ∧ dutiesKept (phaseAfter p e) es

end Sys2Proof.Machine
end

