-- ==== Sys2Proof/Certificates/Slice0/Obligations.lean ====
section
/-! DEFINITION. What is claimed of the model, each from the numbered rules of the spec (basis and cites in
OBLIGATIONS.json). A statement of a command's result is an equation of `exec` with a next state written over the old one, so
it is the command's completion and its frame too: every field not named keeps its value. -/

open Sys2Proof Sys2Proof.Machine

/-! ### Encoding and dispatch -/

/-- R91, R93, R96: words written out from the command format decode to their commands, and others are rejected by name. -/
def Obligations.CommandWordsDecode : Prop :=
  Sys2Proof.decode 0b00000000000000000000000000000000#32 = .ok .extract ∧
  Sys2Proof.decode 0b00000000000000000000000000000001#32 = .ok .decode ∧
  Sys2Proof.decode 0b00000000000000000000000000000010#32 = .ok .recompose ∧
  Sys2Proof.decode 0b00000000000000000000000000000011#32 = .error .illegalOp ∧
  Sys2Proof.decode 0b00000000000000000000000000000101#32 = .error (.reservedBits 1#30) ∧
  Sys2Proof.decode 0b10000000000000000000000000000010#32 = .error (.reservedBits 0x20000000#30)

/-- R93: the opcode map, read both ways: the word of each command, that a word decodes to a command exactly when it is the
command's word, and that every other word, and no command's word, is rejected. -/
def Obligations.DecodeAgreesWithEncode : Prop :=
  (Sys2Proof.encode .extract = 0x00000000#32 ∧ Sys2Proof.encode .decode = 0x00000001#32 ∧
    Sys2Proof.encode .recompose = 0x00000002#32) ∧
  (∀ (v : Word) (i : Instr), Sys2Proof.decode v = .ok i ↔ v = Sys2Proof.encode i) ∧
  ∀ v : Word, (∃ r, Sys2Proof.decode v = .error r) ↔ v ≠ 0x00000000#32 ∧ v ≠ 0x00000001#32 ∧ v ≠ 0x00000002#32

/-- R202: a CTRL write is an illegal command exactly when its word is not 0, 1 or 2, that is when OP is 3 or RSVD is not
0. -/
def Obligations.IllegalCommandExactlyWhen : Prop :=
  ∀ (s : State) (v : Word) (rest : List Event),
    s.phase = .serving → s.port = .access (ctrlWrite v) :: rest →
    ∃ t, step s = .next t ∧
      (t.status.ill = true ↔ v ≠ 0x00000000#32 ∧ v ≠ 0x00000001#32 ∧ v ≠ 0x00000002#32) ∧
      (t.status.ill = true ↔ v.extractLsb' 0 2 = 3#2 ∨ v.extractLsb' 2 30 ≠ 0#30)

/-- R90, R92: an aligned word write to CTRL whose word decodes to a command runs exactly that command on the state with the
write taken off the port, then answers OK. -/
def Obligations.StepRunsDecodedCommand : Prop :=
  ∀ (s : State) (v : Word) (i : Instr) (rest : List Event),
    s.phase = .serving → s.port = .access { off := 0x0C#5, req := .write 4 v } :: rest → Sys2Proof.decode v = .ok i →
    ∃ t, exec i { s with port := rest } = .next t ∧ step s = .next { t with answers := .okWrite :: t.answers }

/-- The table row's word placed as the next CTRL write is run by the next step. The placing is the model's own choice
(assumption 8). -/
def Obligations.FetchWordRunsDecodedCommand : Prop :=
  ∀ (s : State) (nbits w : Nat) (i : Instr), decodeTableWord nbits w = some i →
    ∃ t, exec i { s with phase := .serving } = .next t ∧
      step (s.withFetchWord nbits w) = .next { t with answers := .okWrite :: t.answers }

/-- R92: the dispatch of a command word, and that a command reads only OPA, OPB, OPC and the word and writes only RES0, RES1,
RES2 and STATUS. -/
def Obligations.CommandDispatchReadsOperandsAlone : Prop :=
  (∀ s, command 0x00000000#32 s = exec .extract s ∧ command 0x00000001#32 s = exec .decode s ∧
    command 0x00000002#32 s = exec .recompose s) ∧
  (∀ v s, v ≠ 0x00000000#32 → v ≠ 0x00000001#32 → v ≠ 0x00000002#32 → command v s = .next (s.illegalCommand v)) ∧
  ∀ (v : Word) (s s' : State), s.opa = s'.opa → s.opb = s'.opb → s.opc = s'.opc →
    ∃ r0 r1 r2 st, command v s = .next { s with res0 := r0, res1 := r1, res2 := r2, status := st } ∧
      command v s' = .next { s' with res0 := r0, res1 := r1, res2 := r2, status := st }

/-! ### The port -/

/-- R63, R64: a read of anything but an aligned word is answered ERR with data 0, and an aligned word read returns the
register at its offset; no read changes a register. -/
def Obligations.WordReadReturnsRegister : Prop :=
  ∀ (s : State) (off : Offset) (n : Nat) (rest : List Event),
    s.phase = .serving → s.port = .access { off := off, req := .read n } :: rest →
    (n ≠ 4 ∨ off.toNat % 4 ≠ 0 → step s = .next { s with port := rest, answers := .err :: s.answers }) ∧
    Response.err.readData = some 0x00000000#32 ∧
    ∀ v : Word, n = 4 →
      (off = 0x00#5 ∧ v = s.opa) ∨ (off = 0x04#5 ∧ v = s.opb) ∨ (off = 0x08#5 ∧ v = s.opc) ∨
      (off = 0x0C#5 ∧ v = 0x00000000#32) ∨
      (off = 0x10#5 ∧ v = (s.status.lastop.setWidth 32 <<< 3) ||| (bitWord s.status.dom <<< 2) |||
        (bitWord s.status.ill <<< 1) ||| bitWord s.status.valid) ∨
      (off = 0x14#5 ∧ v = s.res0) ∨ (off = 0x18#5 ∧ v = s.res1) ∨ (off = 0x1C#5 ∧ v = s.res2) →
      step s = .next { s with port := rest, answers := .okRead v :: s.answers }

/-- R63, R65, R66, R204: a write that is no aligned word write, or that goes to STATUS or RES0..RES2, is answered ERR and
changes no register; a word write to OPA, OPB or OPC changes that register alone; a word write to CTRL is a command,
answered OK. -/
def Obligations.WordWriteEffects : Prop :=
  ∀ (s : State) (off : Offset) (n : Nat) (v : Word) (rest : List Event),
    s.phase = .serving → s.port = .access { off := off, req := .write n v } :: rest →
    (n ≠ 4 ∨ off.toNat % 4 ≠ 0 ∨ off = 0x10#5 ∨ off = 0x14#5 ∨ off = 0x18#5 ∨ off = 0x1C#5 →
      step s = .next { s with port := rest, answers := .err :: s.answers }) ∧
    (n = 4 → off = 0x00#5 → step s = .next { s with opa := v, port := rest, answers := .okWrite :: s.answers }) ∧
    (n = 4 → off = 0x04#5 → step s = .next { s with opb := v, port := rest, answers := .okWrite :: s.answers }) ∧
    (n = 4 → off = 0x08#5 → step s = .next { s with opc := v, port := rest, answers := .okWrite :: s.answers }) ∧
    (n = 4 → off = 0x0C#5 → ∃ t, command v { s with port := rest } = .next t ∧
      step s = .next { t with answers := .okWrite :: t.answers })

/-- R63, R204: every access served gets exactly one response, of the kind its request asks for; the response is ERR exactly
for a size other than 4, an offset that is no multiple of 4 or a write to STATUS or RES0..RES2, and then no register changes
and a read carries 0. -/
def Obligations.EveryAccessGetsOneResponse : Prop :=
  ∀ (s : State) (a : Access) (rest : List Event), s.phase = .serving → s.port = .access a :: rest →
    ∃ t r, step s = .next t ∧ t.port = rest ∧ t.phase = .serving ∧ t.answers = r :: s.answers ∧
      (∀ n, a.req = .read n → r = .err ∨ ∃ d, r = .okRead d) ∧
      (∀ n v, a.req = .write n v → r = .err ∨ r = .okWrite) ∧
      (r = .err ↔ a.req.bytes ≠ 4 ∨ a.off.toNat % 4 ≠ 0 ∨
        ((∃ n v, a.req = .write n v) ∧ 0x10 ≤ a.off.toNat)) ∧
      (r = .err → SameRegisters s t ∧ r.readData = some 0x00000000#32)

/-- R67: a read changes no register, and any access repeated at once leaves the same registers and the same response as the
first time. -/
def Obligations.RepeatedAccessChangesNothing : Prop :=
  ∀ (s : State) (a : Access) (rest : List Event), s.phase = .serving →
    s.port = .access a :: .access a :: rest →
    ∃ t u r, step s = .next t ∧ step t = .next u ∧ SameRegisters t u ∧ u.answers = r :: r :: s.answers ∧
      (∀ n, a.req = .read n → SameRegisters s t)

/-- R70, R73, R240: a read right after a CTRL write returns the register as that command left it, and a write to an operand
register right after a CTRL write leaves the results just computed and STATUS as they are. -/
def Obligations.AccessAfterCommandSeesItsResults : Prop :=
  ∀ (s : State) (v : Word) (rest : List Event), s.phase = .serving →
    (∀ r : Reg, s.port = .access (ctrlWrite v) :: .access { off := r.off, req := .read 4 } :: rest →
      ∃ t u w, command v { s with port := rest } = .next t ∧ step s = .next u ∧ step u = .next w ∧
        SameRegisters t w ∧ w.answers = .okRead (t.readReg r) :: .okWrite :: s.answers) ∧
    (∀ (r : Reg) (x : Word), r = .opa ∨ r = .opb ∨ r = .opc →
      s.port = .access (ctrlWrite v) :: .access { off := r.off, req := .write 4 x } :: rest →
      ∃ t u w, command v { s with port := rest } = .next t ∧ step s = .next u ∧ step u = .next w ∧
        w.res0 = t.res0 ∧ w.res1 = t.res1 ∧ w.res2 = t.res2 ∧ w.status = t.status ∧ w.readReg r = x)

/-- R37, R42: the layout of STATUS as a word read returns it. -/
def Obligations.StatusLayout : Prop :=
  ∀ s : State, (s.readReg .status).getLsbD 0 = s.status.valid ∧ (s.readReg .status).getLsbD 1 = s.status.ill ∧
    (s.readReg .status).getLsbD 2 = s.status.dom ∧ (s.readReg .status).extractLsb' 3 2 = s.status.lastop ∧
    (s.readReg .status).extractLsb' 5 27 = 0#27

/-- R61: a host access in the window reaches DCF32 at the offset `a − FD_BASE`, FD_BASE being a multiple of 32; one outside
it never reaches DCF32, for which the model refuses the step (assumption 7). -/
def Obligations.HostAddressReachesOffset : Prop :=
  Config.fdBase % 32 = 0 ∧
  ∀ (s : State) (h : HostAccess) (rest : List Event), s.port = .host h :: rest →
    (∀ off : Offset, h.addr = Config.fdBase + off.toNat →
      step s = step { s with port := .access { off := off, req := h.req.atPort } :: rest }) ∧
    (h.addr < Config.fdBase ∨ Config.fdBase + 32 ≤ h.addr → step s = .refused .outsideWindow)

/-- R73, R76, R209: nothing of an access's origin reaches DCF32, and a fetch is served as a read. -/
def Obligations.OriginAndFetchInvisible : Prop :=
  ∀ (s : State) (o o' : Origin) (addr n : Nat) (rest : List Event),
    (∀ req : HostRequest, step { s with port := .host { origin := o, addr := addr, req := req } :: rest } =
      step { s with port := .host { origin := o', addr := addr, req := req } :: rest }) ∧
    step { s with port := .host { origin := o, addr := addr, req := .fetch n } :: rest } =
      step { s with port := .host { origin := o', addr := addr, req := .read n } :: rest }

/-- R61, R200, R231 and R232: no step ends in a fault, and a step is refused exactly when the event at the port is one the
platform must not let happen. What counts as such an event beyond the rules' words is the model's choice: that an idle step
is never refused (assumption 1), nor a release of a reset that is not asserted (assumption 2); that an access before the first
reset is refused (assumption 3), one during reset (assumption 4), a cut of a command while none can be served (assumption 5),
and a host access outside the window (assumption 7). -/
def Obligations.StepStopsOnlyOnPlatformBreach : Prop :=
  ∀ s : State, (∀ f, step s ≠ .fault f) ∧
    ((∃ r, step s = .refused r) ↔ ∃ e rest, s.port = e :: rest ∧ ¬ permitted s.phase e)

/-- R200, R235, R241: while the platform keeps its duties, a run handles everything that arrives, one event a step, without
stopping. That one step handles one event is the model's choice (assumption 1), and so is that a release of a reset that is
not asserted is among the events a platform may let happen and does nothing (assumption 2). -/
def Obligations.DutifulRunHandlesEveryEvent : Prop :=
  ∀ s : State, dutiesKept s.phase s.port →
    ∃ t, Host.Core.run Sys2Proof.core s.port.length s = .next t ∧ t.port = [] ∧
      t.phase = s.port.foldl phaseAfter s.phase

/-- R212: a host access on a platform changes the one DCF32 whose window holds its address, and no other. -/
def Obligations.PlatformAccessTouchesOneInstance : Prop :=
  ∀ (h : HostAccess) (ps : List Placed),
    (∀ qs, platformAccess h ps = .next qs → ∃ i p t, ps[i]? = some p ∧ p.base ≤ h.addr ∧ h.addr < p.base + 32 ∧
      arriveAt p.base h p.state = .next t ∧ qs = ps.set i { p with state := t }) ∧
    ((∀ p ∈ ps, p.state.phase = .serving) → (∃ p ∈ ps, p.base ≤ h.addr ∧ h.addr < p.base + 32) →
      ∃ qs, platformAccess h ps = .next qs)

/-! ### Reset and power -/

/-- R230: asserting reset, whatever state DCF32 holds, sets every piece of state to its reset value. -/
def Obligations.ResetSetsEveryRegister : Prop :=
  ∀ (s : State) (rest : List Event), s.port = .resetAsserted :: rest →
    ∃ t, step s = .next t ∧
      t = { s with
        opa := 0x00000000#32, opb := 0x00000000#32, opc := 0x00000000#32
        res0 := 0x00000000#32, res1 := 0x00000000#32, res2 := 0x00000000#32
        status := { valid := false, ill := false, dom := false, lastop := 0#2 }
        phase := .inReset, port := rest } ∧
      t.readReg .status = 0x00000000#32 ∧ t.readReg .ctrl = 0x00000000#32

/-- R232: while reset is asserted an access has no step; when it is released DCF32 is in the reset state and serves the next
access. -/
def Obligations.NoAccessWhileResetAsserted : Prop :=
  (∀ (s : State) (a : Access) (rest : List Event), s.phase = .inReset → s.port = .access a :: rest →
    step s = .refused .accessDuringReset) ∧
  ∀ (s : State) (a : Access) (rest : List Event), s.port = .resetAsserted :: .resetReleased :: .access a :: rest →
    ∃ t u w, step s = .next t ∧ step t = .next u ∧ SameRegisters u State.reset ∧ u.phase = .serving ∧
      step u = .next w ∧ w.port = rest ∧ serve a { u with port := rest } = .next w

/-- R233: a reset during a command leaves the reset state, and the response to that CTRL write may be none, OK or ERR. -/
def Obligations.ResetDuringCommandLeavesResetState : Prop :=
  ∀ (s : State) (v : Word) (rest : List Event), s.phase = .serving → s.port = .resetDuringCommand v :: rest →
    ∃ t, step s = .next t ∧ SameRegisters t State.reset ∧ t.phase = .inReset ∧ t.port = rest ∧
      (t.answers = s.answers ∨ t.answers = .okWrite :: s.answers ∨ t.answers = .err :: s.answers)

/-- R214, R231: power-up leaves DCF32 before its first reset; from there no access, at the port or from a host, and no command
to be cut has a step, nothing but asserting reset ends that phase, and a reset gives the reset state whatever the contents
were. R231 leaves the state unspecified until then; that such an access is refused is assumption 3, the cut assumption 5, and
that a release then does nothing assumption 2: the model's choices. -/
def Obligations.PowerUpNeedsReset : Prop :=
  (∀ (s : State) (rest : List Event), s.port = .powerApplied :: rest →
    ∃ t, step s = .next t ∧ t.phase = .unreset ∧ t.port = rest) ∧
  ∀ (s : State) (rest : List Event), s.phase = .unreset →
    (∀ a : Access, s.port = .access a :: rest → step s = .refused .accessBeforeReset) ∧
    (∀ h : HostAccess, s.port = .host h :: rest → Config.fdBase ≤ h.addr → h.addr < Config.fdBase + 32 →
      step s = .refused .accessBeforeReset) ∧
    (∀ v : Word, s.port = .resetDuringCommand v :: rest → step s = .refused .accessBeforeReset) ∧
    (∀ (e : Event) (t : State), s.port = e :: rest → e ≠ .resetAsserted → step s = .next t → t.phase = .unreset) ∧
    (s.port = .resetAsserted :: rest →
      ∃ u, step s = .next u ∧ SameRegisters u State.reset ∧ u.phase = .inReset ∧ u.port = rest)

/-- R214: with nothing at the port DCF32 keeps its state; that a step then is idle is the model's choice (assumption 1). -/
def Obligations.IdleStepKeepsState : Prop :=
  ∀ s : State, s.port = [] → step s = .next s

/-- R234: DECODE issued right after reset uses the reset operands. -/
def Obligations.DecodeRightAfterReset : Prop :=
  ∃ t, step { State.reset with port := [.access (ctrlWrite 0x00000001#32)] } = .next t ∧
    t.opa = 0x00000000#32 ∧ t.opb = 0x00000000#32 ∧ t.opc = 0x00000000#32 ∧
    t.res0 = 0x3F800000#32 ∧ t.res1 = 0x00400000#32 ∧ t.res2 = 0x00000000#32

/-! ### The illegal command -/

/-- R203, R96: an illegal command clears RES0..RES2, writes STATUS, leaves OPA, OPB and OPC, and is answered OK. -/
def Obligations.IllegalCommandOutcome : Prop :=
  (∀ (s : State) (v : Word) (rest : List Event), s.phase = .serving → s.port = .access (ctrlWrite v) :: rest →
    v ≠ 0x00000000#32 → v ≠ 0x00000001#32 → v ≠ 0x00000002#32 →
    step s = .next { s with
      res0 := 0x00000000#32, res1 := 0x00000000#32, res2 := 0x00000000#32
      status := { valid := false, ill := true, dom := false, lastop := v.extractLsb' 0 2 }
      port := rest, answers := .okWrite :: s.answers }) ∧
  ∀ s : State, (s.illegalCommand 0x00000003#32).readReg .status = 0x0000001A#32

/-! ### EXTRACT -/

/-- R110, R111: EXTRACT's results and STATUS for every OPA, the fields by shifts and masks and as slices of the word, and the
spec's example. -/
def Obligations.ExtractResult : Prop :=
  (∀ s : State, exec .extract s = .next { s with
      res0 := (s.opa >>> 31) &&& 0x1#32
      res1 := (s.opa >>> 23) &&& 0xFF#32
      res2 := s.opa &&& 0x7FFFFF#32
      status := { valid := true, ill := false, dom := false, lastop := 0#2 } }) ∧
  (∀ s : State, exec .extract s = .next { s with
      res0 := (s.opa.extractLsb' 31 1).setWidth 32
      res1 := (s.opa.extractLsb' 23 8).setWidth 32
      res2 := (s.opa.extractLsb' 0 23).setWidth 32
      status := { valid := true, ill := false, dom := false, lastop := 0#2 } }) ∧
  ∀ s t : State, s.opa = 0x4229AE14#32 → exec .extract s = .next t →
    t.res0 = 0x00000000#32 ∧ t.res1 = 0x00000084#32 ∧ t.res2 = 0x0029AE14#32

/-- R112: the three extracted fields at their positions reproduce OPA. -/
def Obligations.ExtractRoundTrip : Prop :=
  ∀ s : State, ∃ t, exec .extract s = .next t ∧ (t.res0 <<< 31) ||| (t.res1 <<< 23) ||| t.res2 = s.opa

/-- R113: the ranges of EXTRACT's results; they are exactly DECODE's in-domain operands, so DECODE of them never sets DOM. -/
def Obligations.ExtractResultsAreDecodeDomain : Prop :=
  (∀ s : State, ∃ t, exec .extract s = .next t ∧ (t.res0 = 0#32 ∨ t.res0 = 1#32) ∧ t.res1.toNat ≤ 255 ∧
    t.res2.toNat ≤ 2 ^ 23 - 1 ∧ t.res0.extractLsb' 1 31 = 0#31 ∧ t.res1.extractLsb' 8 24 = 0#24 ∧
    t.res2.extractLsb' 23 9 = 0#9 ∧
    ∃ u, exec .decode { t with opa := t.res0, opb := t.res1, opc := t.res2 } = .next u ∧ u.status.dom = false) ∧
  ∀ a b c : Word, a.toNat ≤ 1 → b.toNat ≤ 255 → c.toNat ≤ 0x7FFFFF →
    ∃ x : Word, ∀ s : State, s.opa = x →
      ∃ t, exec .extract s = .next t ∧ t.res0 = a ∧ t.res1 = b ∧ t.res2 = c

/-- R33 to R35, R115: EXTRACT's results and STATUS depend on OPA alone. -/
def Obligations.ExtractDependsOnOpaAlone : Prop :=
  ∀ s s' : State, s.opa = s'.opa → ∃ t t', exec .extract s = .next t ∧ exec .extract s' = .next t' ∧
    t.res0 = t'.res0 ∧ t.res1 = t'.res1 ∧ t.res2 = t'.res2 ∧ t.status = t'.status

/-! ### DECODE -/

/-- R130, R131, R132, R134, R139: DECODE's results for every operand, in and out of its domain: the sign by parity, the exact
power 2^(e − 127) rounded once, and the sum of the weights of the set bits 0 to 22 in ascending order, each partial sum
rounded; STATUS with the domain test; nothing else changes; the corner cases e = 0, e = 255 and f = 0; and the spec's
example. -/
def Obligations.DecodeResult : Prop :=
  (∀ s : State, exec .decode s = .next { s with
      res0 := if s.opa.getLsbD 0 then 0xBF800000#32 else 0x3F800000#32
      res1 := round32Exact false ((2 : ℚ) ^ ((s.opb.toNat : ℤ) - 127))
      res2 := (List.range 23).foldl
        (fun acc i =>
          if s.opc.getLsbD i then round32Exact false (val32 acc + val32 (BitVec.ofNat 32 (i + 104) <<< 23)) else acc)
        0x00000000#32
      status :=
        { valid := true, ill := false, lastop := 1#2
          dom := decide (s.opa.toNat > 1 ∨ s.opb.toNat > 255 ∨ s.opc.toNat > 0x7FFFFF) } }) ∧
  (∀ s t : State, exec .decode s = .next t →
    (s.opb = 0#32 → t.res1 = 0x00400000#32 ∧ classify t.res1 = .subnormal) ∧ (s.opb = 255#32 → t.res1 = 0x7F800000#32) ∧
    (s.opc = 0#32 → t.res2 = 0x00000000#32)) ∧
  ∀ s t : State, s.opa = 0#32 → s.opb = 132#32 → s.opc = 2731540#32 → exec .decode s = .next t →
    t.res0 = 0x3F800000#32 ∧ t.res1 = 0x42000000#32 ∧ t.res2 = 0x3EA6B850#32

/-- R131: the sign by the parity of the whole 32-bit operand. -/
def Obligations.SignDecodeByParity : Prop :=
  ∀ s : State, ∃ t, exec .decode s = .next t ∧
    (s.opa = 0#32 → t.res0 = 0x3F800000#32) ∧ (s.opa = 1#32 → t.res0 = 0xBF800000#32) ∧
    t.res0 = (if s.opa.toNat % 2 = 1 then 0xBF800000#32 else 0x3F800000#32)

/-- R132: the exponent value is the exact power 2^(e − 127) rounded once, for every 32-bit e and with no wrap-around. -/
def Obligations.ExpDecodeRoundsExactPower : Prop :=
  ∀ s : State, ∃ t, exec .decode s = .next t ∧
    t.res1 = round32Exact false ((2 : ℚ) ^ ((s.opb.toNat : ℤ) - 127))

/-- R133: the closed form of the exponent value, with its class and exact value; never negative, never zero and never
NaN. -/
def Obligations.ExpDecodeClosedForm : Prop :=
  ∀ s : State, ∃ t, exec .decode s = .next t ∧
    (s.opb = 0#32 → t.res1 = 0x00400000#32) ∧
    (1 ≤ s.opb.toNat → s.opb.toNat ≤ 254 → t.res1 = s.opb <<< 23) ∧
    (255 ≤ s.opb.toNat → t.res1 = 0x7F800000#32) ∧
    (s.opb = 127#32 → t.res1 = 0x3F800000#32) ∧
    (s.opb = 0#32 → classify t.res1 = .subnormal) ∧ (1 ≤ s.opb.toNat → s.opb.toNat ≤ 254 → classify t.res1 = .normal) ∧
    (s.opb.toNat ≤ 254 → val32 t.res1 = 2 ^ ((s.opb.toNat : ℤ) - 127)) ∧
    isNeg t.res1 = false ∧ classify t.res1 ≠ .zero ∧ classify t.res1 ≠ .nan

/-- R135: after the bits 0..j the accumulator holds exactly (f mod 2^(j+1)) · 2^−23, a normal number when not zero, so the
mantissa value is f[22:0] · 2^−23, and the additions in any order give the same pattern. -/
def Obligations.MantissaSumExactInAnyOrder : Prop :=
  (∀ (f : Word) (j : Nat), j ≤ 22 →
    val32 (mantAccumulator f (j + 1)) = ((f.toNat % 2 ^ (j + 1) : ℕ) : ℚ) * 2 ^ (-23 : ℤ) ∧
    (f.toNat % 2 ^ (j + 1) ≠ 0 → classify (mantAccumulator f (j + 1)) = .normal)) ∧
  ∀ s : State, ∃ t, exec .decode s = .next t ∧ val32 t.res2 = ((s.opc.toNat % 2 ^ 23 : ℕ) : ℚ) * 2 ^ (-23 : ℤ) ∧
    ∀ order : List Nat, order.Perm (List.range 23) → order.foldl (accumulate s.opc) 0x00000000#32 = t.res2

/-- R136: the closed form of the mantissa value, `p` the index of the highest set bit of `g = f[22:0]`. -/
def Obligations.MantDecodeClosedForm : Prop :=
  ∀ s : State, ∃ t, exec .decode s = .next t ∧
    (s.opc &&& 0x7FFFFF#32 = 0#32 → t.res2 = 0x00000000#32) ∧
    (∀ p : Nat, 2 ^ p ≤ (s.opc &&& 0x7FFFFF#32).toNat → (s.opc &&& 0x7FFFFF#32).toNat < 2 ^ (p + 1) →
      t.res2 = (BitVec.ofNat 32 (p + 104) <<< 23) |||
        (((s.opc &&& 0x7FFFFF#32) <<< (23 - p)) &&& 0x7FFFFF#32)) ∧
    0 ≤ val32 t.res2 ∧ val32 t.res2 ≤ 1 - 2 ^ (-23 : ℤ) ∧ isNeg t.res2 = false

/-- R40: STATUS.DOM after a command: DECODE sets it exactly for an operand outside its field's domain and completes all the
same; EXTRACT, RECOMPOSE, every illegal command and a reset clear it. -/
def Obligations.DomainFlagExactlyWhen : Prop :=
  ∀ s : State,
    (∃ t, exec .decode s = .next t ∧
      (t.status.dom = true ↔ s.opa.toNat > 1 ∨ s.opb.toNat > 255 ∨ s.opc.toNat > 0x7FFFFF)) ∧
    (∃ t, exec .extract s = .next t ∧ t.status.dom = false) ∧
    (∃ t, exec .recompose s = .next t ∧ t.status.dom = false) ∧
    (∀ v r, Sys2Proof.decode v = .error r → ∃ t, command v s = .next t ∧ t.status.dom = false) ∧
    s.clear.status.dom = false

/-- R140: the document's three decoder properties. -/
def Obligations.DecoderProperties : Prop :=
  ∀ s : State, ∃ t, exec .decode s = .next t ∧
    (s.opa = 0#32 → t.res0 = 0x3F800000#32) ∧ (s.opa = 1#32 → t.res0 = 0xBF800000#32) ∧
    (s.opb = 127#32 → t.res1 = 0x3F800000#32) ∧ (s.opc = 0#32 → t.res2 = 0x00000000#32)

/-- R141: the output domains of DECODE, for every operand. -/
def Obligations.DecodeOutputDomains : Prop :=
  ∀ s : State, ∃ t, exec .decode s = .next t ∧ DecodeResults t.res0 t.res1 t.res2 ∧
    (s.opb.toNat ≤ 254 → val32 t.res1 = 2 ^ ((s.opb.toNat : ℤ) - 127)) ∧ (s.opb = 255#32 → t.res1 = 0x7F800000#32)

/-- R142: for a normal value, the decoded fields of its extracted fields give it back with the implicit 1 put in by hand, and
RECOMPOSE of them gives it less the term of that 1. -/
def Obligations.DecodedFieldsOfNormal : Prop :=
  ∀ s : State, classify s.opa = .normal →
    ∃ t u w, exec .extract s = .next t ∧
      exec .decode { t with opa := t.res0, opb := t.res1, opc := t.res2 } = .next u ∧
      exec .recompose { u with opa := u.res0, opb := u.res1, opc := u.res2 } = .next w ∧
      val32 u.res0 = (-1) ^ t.res0.toNat ∧ val32 u.res1 = 2 ^ ((t.res1.toNat : ℤ) - 127) ∧
      val32 u.res2 = t.res2.toNat * 2 ^ (-23 : ℤ) ∧
      val32 s.opa = val32 u.res0 * val32 u.res1 * (1 + val32 u.res2) ∧
      val32 w.res0 = val32 s.opa - val32 u.res0 * val32 u.res1

/-! ### binary32 -/

/-- R10, R11: the class of a pattern by its exponent and fraction fields. -/
def Obligations.ClassTable : Prop :=
  ∀ x : Word,
    (classify x = .nan ↔ x.extractLsb' 23 8 = 255#8 ∧ x.extractLsb' 0 23 ≠ 0#23) ∧
    (classify x = .infinity ↔ x.extractLsb' 23 8 = 255#8 ∧ x.extractLsb' 0 23 = 0#23) ∧
    (classify x = .zero ↔ x.extractLsb' 23 8 = 0#8 ∧ x.extractLsb' 0 23 = 0#23) ∧
    (classify x = .subnormal ↔ x.extractLsb' 23 8 = 0#8 ∧ x.extractLsb' 0 23 ≠ 0#23) ∧
    (classify x = .normal ↔ x.extractLsb' 23 8 ≠ 255#8 ∧ x.extractLsb' 23 8 ≠ 0#8)

/-- R13: the integer rounding the meanings use is the spec's Round32 of the exact rational, for every sign and magnitude. -/
def Obligations.RoundingIsRound32 : Prop :=
  ∀ (neg : Bool) (m : Nat) (e : Int),
    round32 neg { sig := m, exp := e } = round32Exact neg ((m : ℚ) * 2 ^ e)

/-- R12, R13, R17: Round32 of the exact value of a finite pattern, subnormals included, gives that pattern back. -/
def Obligations.Round32ReturnsRepresentable : Prop :=
  ∀ x : Word, classify x ≠ .nan → classify x ≠ .infinity → round32Exact (isNeg x) |val32 x| = x

/-- R171: FMul32 on every pair of patterns, the finite product rounded once from the exact product of the values; the sign of
every result that is no NaN; and commutativity. -/
def Obligations.Fmul32CorrectlyRounded : Prop :=
  ∀ x y : Word,
    (classify x = .nan ∨ classify y = .nan → fmul32 x y = 0x7FC00000#32) ∧
    (classify x = .infinity → classify y = .zero → fmul32 x y = 0x7FC00000#32) ∧
    (classify x = .zero → classify y = .infinity → fmul32 x y = 0x7FC00000#32) ∧
    (classify x = .infinity → classify y ≠ .nan → classify y ≠ .zero →
      fmul32 x y = ((signField x ^^^ signField y) <<< 31) ||| 0x7F800000#32) ∧
    (classify y = .infinity → classify x ≠ .nan → classify x ≠ .zero →
      fmul32 x y = ((signField x ^^^ signField y) <<< 31) ||| 0x7F800000#32) ∧
    (classify x = .zero → classify y ≠ .nan → classify y ≠ .infinity →
      fmul32 x y = (signField x ^^^ signField y) <<< 31) ∧
    (classify y = .zero → classify x ≠ .nan → classify x ≠ .infinity →
      fmul32 x y = (signField x ^^^ signField y) <<< 31) ∧
    (classify x = .normal ∨ classify x = .subnormal → classify y = .normal ∨ classify y = .subnormal →
      fmul32 x y = round32Exact (isNeg x ^^ isNeg y) (|val32 x| * |val32 y|)) ∧
    (classify (fmul32 x y) ≠ .nan → isNeg (fmul32 x y) = (isNeg x ^^ isNeg y)) ∧ fmul32 x y = fmul32 y x

/-! ### RECOMPOSE -/

/-- R170: RECOMPOSE multiplies from left to right, rounding each product; RES1 and RES2 hold 0; and the spec's
example. -/
def Obligations.RecomposeResult : Prop :=
  (∀ s : State, exec .recompose s = .next { s with
      res0 := fmul32 (fmul32 s.opa s.opb) s.opc, res1 := 0x00000000#32, res2 := 0x00000000#32
      status := { valid := true, ill := false, dom := false, lastop := 2#2 } }) ∧
  ∀ s t : State, s.opa = 0x3F800000#32 → s.opb = 0x42000000#32 → s.opc = 0x3EA6B850#32 →
    exec .recompose s = .next t → t.res0 = 0x4126B850#32

/-- R15: a NaN result of any command is the canonical NaN: RECOMPOSE's RES0 is a NaN only as 0x7FC00000, whatever NaN an
operand is it is that NaN, and DECODE's results are never NaN. -/
def Obligations.NanResultsAreCanonical : Prop :=
  ∀ s : State,
    (∃ t, exec .recompose s = .next t ∧ (classify t.res0 = .nan → t.res0 = 0x7FC00000#32) ∧
      (classify s.opa = .nan ∨ classify s.opb = .nan ∨ classify s.opc = .nan → t.res0 = 0x7FC00000#32)) ∧
    ∃ t, exec .decode s = .next t ∧ classify t.res0 ≠ .nan ∧ classify t.res1 ≠ .nan ∧ classify t.res2 ≠ .nan

/-- R172: the multiplications go from left to right, each product rounded; for operands that DECODE gives, the order does not
change the result; for others it can. -/
def Obligations.OrderImmaterialForDecodedOperands : Prop :=
  (∀ s : State, ∃ t, exec .recompose s = .next t ∧ t.res0 = fmul32 (fmul32 s.opa s.opb) s.opc) ∧
  (∃ a b c : Word, fmul32 (fmul32 a b) c ≠ fmul32 a (fmul32 b c)) ∧
  ∀ s : State, ∃ t u, exec .decode s = .next t ∧
    exec .recompose { t with opa := t.res0, opb := t.res1, opc := t.res2 } = .next u ∧
    u.res0 = fmul32 t.res0 (fmul32 t.res1 t.res2)

/-- From R171 and R175: RECOMPOSE on any operands: a NaN operand anywhere and 0 × ∞ in either product give the canonical NaN, ±∞ times
a finite non-zero value gives ±∞ in either product and in either order, a product of at most half the smallest subnormal gives a signed zero, one of at least 2^128
gives ±∞, and DOM is 0. (A product above the largest binary32 and below 2^128 is rounded as R171 says.) -/
def Obligations.RecomposeCornerCases : Prop :=
  ∀ s : State, ∃ t, exec .recompose s = .next t ∧ t.status.dom = false ∧
    (classify s.opa = .nan ∨ classify s.opb = .nan ∨ classify s.opc = .nan → t.res0 = 0x7FC00000#32) ∧
    (classify s.opa = .infinity → classify s.opb = .zero → t.res0 = 0x7FC00000#32) ∧
    (classify s.opa = .zero → classify s.opb = .infinity → t.res0 = 0x7FC00000#32) ∧
    (classify (fmul32 s.opa s.opb) = .infinity → classify s.opc = .zero → t.res0 = 0x7FC00000#32) ∧
    (classify (fmul32 s.opa s.opb) = .zero → classify s.opc = .infinity → t.res0 = 0x7FC00000#32) ∧
    (classify (fmul32 s.opa s.opb) = .infinity → classify s.opc = .normal ∨ classify s.opc = .subnormal →
      t.res0 = ((signField s.opa ^^^ signField s.opb ^^^ signField s.opc) <<< 31) ||| 0x7F800000#32) ∧
    (classify (fmul32 s.opa s.opb) = .normal ∨ classify (fmul32 s.opa s.opb) = .subnormal → classify s.opc = .infinity →
      t.res0 = ((signField s.opa ^^^ signField s.opb ^^^ signField s.opc) <<< 31) ||| 0x7F800000#32) ∧
    (classify s.opa = .infinity → classify s.opb = .normal ∨ classify s.opb = .subnormal →
      fmul32 s.opa s.opb = ((signField s.opa ^^^ signField s.opb) <<< 31) ||| 0x7F800000#32) ∧
    (classify s.opa = .normal ∨ classify s.opa = .subnormal → classify s.opb = .infinity →
      fmul32 s.opa s.opb = ((signField s.opa ^^^ signField s.opb) <<< 31) ||| 0x7F800000#32) ∧
    ∀ x y : Word, classify x = .normal ∨ classify x = .subnormal → classify y = .normal ∨ classify y = .subnormal →
      (|val32 x| * |val32 y| ≤ 2 ^ (-150 : ℤ) → fmul32 x y = (signField x ^^^ signField y) <<< 31) ∧
      (2 ^ (128 : ℤ) ≤ |val32 x| * |val32 y| →
        fmul32 x y = ((signField x ^^^ signField y) <<< 31) ||| 0x7F800000#32)

/-- R173: the closed form of RECOMPOSE on the DECODE results of raw fields (s, e, f) with s 0 or 1, `g = f[22:0]`, `p` the
index of its highest set bit; exact for e from 1 to 254, rounded once for e = 0, and never an infinity for e up to 254. -/
def Obligations.RecomposeOfDecodedClosedForm : Prop :=
  ∀ (st : State) (g : Word), st.opa = 0#32 ∨ st.opa = 1#32 → g = st.opc &&& 0x7FFFFF#32 →
    ∃ t u, exec .decode st = .next t ∧
      exec .recompose { t with opa := t.res0, opb := t.res1, opc := t.res2 } = .next u ∧
      (1 ≤ st.opb.toNat → st.opb.toNat ≤ 254 → g = 0#32 → u.res0 = st.opa <<< 31) ∧
      (∀ p : Nat, 1 ≤ st.opb.toNat → st.opb.toNat ≤ 254 → 2 ^ p ≤ g.toNat → g.toNat < 2 ^ (p + 1) →
        (24 ≤ p + st.opb.toNat → u.res0 = (st.opa <<< 31) |||
          (BitVec.ofNat 32 (p + st.opb.toNat - 23) <<< 23) ||| ((g <<< (23 - p)) &&& 0x7FFFFF#32)) ∧
        (p + st.opb.toNat ≤ 23 → u.res0 = (st.opa <<< 31) ||| (g <<< (st.opb.toNat - 1)))) ∧
      (st.opb = 0#32 → u.res0 = (st.opa <<< 31) ||| BitVec.ofNat 32 (rne ((g.toNat : ℚ) / 2))) ∧
      (255 ≤ st.opb.toNat → g = 0#32 → u.res0 = 0x7FC00000#32) ∧
      (255 ≤ st.opb.toNat → g ≠ 0#32 → u.res0 = (st.opa <<< 31) ||| 0x7F800000#32) ∧
      (1 ≤ st.opb.toNat → st.opb.toNat ≤ 254 →
        val32 u.res0 = (-1) ^ st.opa.toNat * g.toNat * 2 ^ ((st.opb.toNat : ℤ) - 150)) ∧
      (st.opb = 0#32 → u.res0 = round32Exact (st.opa.getLsbD 0) (g.toNat * 2 ^ (-150 : ℤ))) ∧
      (st.opb.toNat ≤ 254 → classify u.res0 ≠ .infinity)

/-- R174: for a normal value, EXTRACT, DECODE and RECOMPOSE leave exactly the value less its implicit-1 term, which is
smaller in magnitude; with a zero fraction, a signed zero. -/
def Obligations.ReconstructionOmitsImplicitOne : Prop :=
  ∀ s : State, classify s.opa = .normal →
    ∃ t u w, exec .extract s = .next t ∧
      exec .decode { t with opa := t.res0, opb := t.res1, opc := t.res2 } = .next u ∧
      exec .recompose { u with opa := u.res0, opb := u.res1, opc := u.res2 } = .next w ∧
      val32 w.res0 = val32 s.opa - (-1) ^ t.res0.toNat * 2 ^ ((t.res1.toNat : ℤ) - 127) ∧
      |val32 w.res0| < |val32 s.opa| ∧
      (t.res2 = 0#32 → w.res0 = t.res0 <<< 31)

/-- R99, R176: `deconstruct x -> r`, run with no access of another master between its lines (R244), leaves in r the closed
form Deconstruct(x), from any state that serves accesses; every
DECODE in the pipeline has DOM = 0. `S`, `E` and `F` are the fields of x and `p` the index of F's highest set bit. -/
def Obligations.DeconstructClosedForm : Prop :=
  ∀ (s : State) (x S E F : Word) (r : Name), s.phase = .serving →
    S = signField x → E = expField x → F = fracField x →
    ∃ h y, runProgram [] [.pseudo (.deconstruct (.lit x) r)] s = .next h ∧ lookupName h.names r = some y ∧
      (classify x = .normal → F = 0#32 → y = S <<< 31) ∧
      (∀ p : Nat, classify x = .normal → 2 ^ p ≤ F.toNat → F.toNat < 2 ^ (p + 1) →
        (24 ≤ p + E.toNat → y = (S <<< 31) ||| (BitVec.ofNat 32 (p + E.toNat - 23) <<< 23) |||
          ((F <<< (23 - p)) &&& 0x7FFFFF#32)) ∧
        (p + E.toNat ≤ 23 → y = (S <<< 31) ||| (F <<< (E.toNat - 1)))) ∧
      (E = 0#32 → y = (S <<< 31) ||| BitVec.ofNat 32 (rne ((F.toNat : ℚ) / 2))) ∧
      (classify x = .infinity → y = 0x7FC00000#32) ∧
      (classify x = .nan → y = (S <<< 31) ||| 0x7F800000#32) ∧
      ∃ u, exec .decode { s with opa := S, opb := E, opc := F } = .next u ∧ u.status.dom = false

/-! ### Host programs -/

/-- R99: the expansions of the pseudo-instructions, access by access; the names t0..t2 and u0..u2 of an expansion are no
names of a text and no names of another expansion, and two deconstruct lines of one program are expanded with different
numbers. That the private names are of a kind of their own, numbered by the expansion, is the model's choice (assumption
10). -/
def Obligations.PseudoExpansions : Prop :=
  (∀ (k k' i j : Nat) (text : String), Name.t k i ≠ .user text ∧ Name.u k i ≠ .user text ∧ Name.t k i ≠ .u k' j ∧
    (k ≠ k' → Name.t k i ≠ .t k' j ∧ Name.u k i ≠ .u k' j)) ∧
  (∀ (k : Nat) (x s e f a b c : Value) (n n0 n1 n2 : Name),
    (Pseudo.extract x).expand k = [wrReg .opa x, wrReg .ctrl (.cmd .extract)] ∧
    (Pseudo.decode s e f).expand k = [wrReg .opa s, wrReg .opb e, wrReg .opc f, wrReg .ctrl (.cmd .decode)] ∧
    (Pseudo.recompose a b c).expand k = [wrReg .opa a, wrReg .opb b, wrReg .opc c, wrReg .ctrl (.cmd .recompose)] ∧
    (Pseudo.results n0 n1 n2).expand k = [rdReg .res0 n0, rdReg .res1 n1, rdReg .res2 n2] ∧
    (Pseudo.status n).expand k = [rdReg .status n] ∧
    (Pseudo.deconstruct x n).expand k =
      (Pseudo.extract x).expand k ++ (Pseudo.results (.t k 0) (.t k 1) (.t k 2)).expand k ++
      (Pseudo.decode (.name (.t k 0)) (.name (.t k 1)) (.name (.t k 2))).expand k ++
      (Pseudo.results (.u k 0) (.u k 1) (.u k 2)).expand k ++
      (Pseudo.recompose (.name (.u k 0)) (.name (.u k 1)) (.name (.u k 2))).expand k ++ [rdReg .res0 n]) ∧
  ∀ (pre mid post : List Line) (x x' : Value) (r r' : Name), ∃ k k' : Nat, k < k' ∧
    expandProgram (pre ++ .pseudo (.deconstruct x r) :: mid ++ .pseudo (.deconstruct x' r') :: post) =
      expandProgram pre ++ (Pseudo.deconstruct x r).expand k ++ expandFrom (k + 1) mid ++
        (Pseudo.deconstruct x' r').expand k' ++ expandFrom (k' + 1) post

/-- R73, R98, R101: from a state that serves accesses a host program is performed to its end, whatever accesses of other masters
come before its lines, exactly when none of its lines uses an unbound name: each line and each of those accesses is answered
once, and what is to arrive besides them is left. Otherwise the program is ill formed and its run ends in the fault
unboundName. The fault, and that a read answered ERR unbinds a name bound before, are the model's choice (assumption 13), and
so is the form of `turns` (assumption 18). -/
def Obligations.WellFormedProgramRunsToEnd : Prop :=
  ∀ (turns : List Nat) (ls : List Line) (s : State) (n k : Nat), s.phase = .serving →
    n = (expandProgram ls).length → k = (turns.take n).sum → (∀ e ∈ s.port.take k, servedAccess e) →
    (programWellFormed ls = true →
      ∃ h, runProgram turns ls s = .next h ∧ h.machine.phase = .serving ∧ h.machine.port = s.port.drop k ∧
        h.machine.answers.length = s.answers.length + n + min k s.port.length) ∧
    (programWellFormed ls = false → runProgram turns ls s = .fault .unboundName)

/-- R73, R101: a host program's run among the accesses of others is a run of DCF32 over one port order, in which the accesses of
its lines stand in program order, each after as many of the pending events as its turn says; and every interleaving of the
lines' accesses with pending events is such an order. That `turns` gives the interleaving is the model's choice (assumption
18), and so is that no reset cuts a line's own CTRL write (assumption 19). -/
def Obligations.ProgramRunFollowsOnePortOrder : Prop :=
  (∀ (turns : List Nat) (ls : List Line) (s : State) (h : HostState), runProgram turns ls s = .next h →
    ∃ as : List Access, List.Forall₂ (fun b a => ∃ names, Basic.access names b = some a) (expandProgram ls) as ∧
      Host.Core.run Sys2Proof.core ((expandProgram ls).length + (s.port.length - h.machine.port.length))
        { s with port := portOrder turns as s.port } = .next h.machine) ∧
  ∀ (between : List (List Event)) (as : List Access) (rest : List Event), between.length = as.length →
    portOrder (between.map List.length) as (between.flatten ++ rest) =
      (List.zipWith (fun es a => es ++ [.access a]) between as).flatten ++ rest

/-! ### The invariant -/

/-- R30, R38 to R45, R50, R113, R141, R230: every step keeps the invariant, from every state that has it. -/
def Obligations.StepKeepsResultsConsistent : Prop :=
  ∀ s t : State, Inv s → step s = .next t → Inv t

/-- R230: the reset state has the values the spec gives and meets the invariant. -/
def Obligations.ResetStateMeetsInvariant : Prop :=
  Inv State.reset ∧ State.reset.opa = 0x00000000#32 ∧ State.reset.opb = 0x00000000#32 ∧
    State.reset.opc = 0x00000000#32 ∧ State.reset.res0 = 0x00000000#32 ∧ State.reset.res1 = 0x00000000#32 ∧
    State.reset.res2 = 0x00000000#32 ∧ State.reset.readReg .status = 0x00000000#32 ∧
    State.reset.readReg .ctrl = 0x00000000#32
end

