-- ==== Sys2Proof/Laws/Binary32.lean ====
section
/-! SUPPORT. What the binary32 primitives do, said once: the fields of a pattern as numbers, packing and its fields, rounding
to the nearest even (exact, subnormal, overflowing, its possible results), and the classes. -/

namespace Sys2Proof.Machine

/-- Bit 31 as a number (R10). -/
theorem signField_toNat (x : Word) : (signField x).toNat = x.toNat / 2 ^ 31 := by
  have := x.isLt
  simp only [signField, BitVec.toNat_and, BitVec.toNat_ushiftRight, BitVec.toNat_ofNat, Nat.shiftRight_eq_div_pow]
  rw [show 1 % 2 ^ 32 = 2 ^ 1 - 1 from rfl, Nat.and_two_pow_sub_one_eq_mod]
  omega

/-- Bits 30:23 as a number (R10). -/
theorem expField_toNat (x : Word) : (expField x).toNat = x.toNat / 2 ^ 23 % 256 := by
  simp only [expField, BitVec.toNat_and, BitVec.toNat_ushiftRight, BitVec.toNat_ofNat, Nat.shiftRight_eq_div_pow]
  rw [show 255 % 2 ^ 32 = 2 ^ 8 - 1 from rfl, Nat.and_two_pow_sub_one_eq_mod]

/-- Bits 22:0 as a number (R10). -/
theorem fracField_toNat (x : Word) : (fracField x).toNat = x.toNat % 2 ^ 23 := by
  simp only [fracField, BitVec.toNat_and, BitVec.toNat_ofNat]
  rw [show 8388607 % 2 ^ 32 = 2 ^ 23 - 1 from rfl, Nat.and_two_pow_sub_one_eq_mod]

/-- The sign is minus for the upper half of the patterns (R10). -/
theorem isNeg_eq (x : Word) : isNeg x = decide (2 ^ 31 ≤ x.toNat) := by
  have := x.isLt
  simp only [isNeg, BitVec.getLsbD, Nat.testBit_eq_decide_div_mod_eq]
  congr 1
  simp only [eq_iff_iff]
  omega

/-- The sign bit as a number. -/
theorem signBit_toNat (b : Bool) : (signBit b).toNat = if b then 2 ^ 31 else 0 := by
  cases b <;> rfl

/-- A packed pattern as a number (R10). -/
theorem packFields_toNat (b : Bool) {e f : Nat} (he : e < 256) (hf : f < 2 ^ 23) :
    (packFields b e f).toNat = (if b then 2 ^ 31 else 0) + e * 2 ^ 23 + f := by
  have h1 : (BitVec.ofNat 32 e <<< 23).toNat = e * 2 ^ 23 := by
    simp only [BitVec.toNat_shiftLeft, BitVec.toNat_ofNat, Nat.shiftLeft_eq]
    omega
  have h2 : (BitVec.ofNat 32 f).toNat = f := by
    simp only [BitVec.toNat_ofNat]; omega
  have h3 : e * 2 ^ 23 ||| f = e * 2 ^ 23 + f := by
    rw [Nat.mul_comm, ← Nat.two_pow_add_eq_or_of_lt hf]
  simp only [packFields, BitVec.toNat_or, h1, h2, signBit_toNat, Nat.or_assoc, h3]
  cases b
  · simp
  · simp only [if_true]
    have := Nat.two_pow_add_eq_or_of_lt (i := 31) (b := e * 2 ^ 23 + f) (by omega) 1
    simp only [Nat.mul_one] at this
    omega

/-- A pattern as a number from its three fields (R10). -/
theorem word_split (x : Word) :
    x.toNat = (if isNeg x then 2 ^ 31 else 0) + (expField x).toNat * 2 ^ 23 + (fracField x).toNat := by
  have := x.isLt
  rw [expField_toNat, fracField_toNat, isNeg_eq]
  split <;> rename_i h <;> simp at h <;> omega

/-- The exponent field is an 8-bit number (R10). -/
theorem expField_lt (x : Word) : (expField x).toNat < 256 := by
  rw [expField_toNat]; omega

/-- The fraction field is a 23-bit number (R10). -/
theorem fracField_lt (x : Word) : (fracField x).toNat < 2 ^ 23 := by
  rw [fracField_toNat]; omega

/-- Packing the fields of a pattern gives it back (R10). -/
theorem packFields_fields (x : Word) : packFields (isNeg x) (expField x).toNat (fracField x).toNat = x := by
  apply BitVec.eq_of_toNat_eq
  rw [packFields_toNat _ (expField_lt x) (fracField_lt x)]
  exact (word_split x).symm

/-- The sign of a packed pattern. -/
theorem isNeg_packFields (b : Bool) {e f : Nat} (he : e < 256) (hf : f < 2 ^ 23) :
    isNeg (packFields b e f) = b := by
  rw [isNeg_eq, packFields_toNat b he hf]
  cases b <;> simp <;> omega

/-- The exponent field of a packed pattern. -/
theorem expField_packFields (b : Bool) {e f : Nat} (he : e < 256) (hf : f < 2 ^ 23) :
    (expField (packFields b e f)).toNat = e := by
  rw [expField_toNat, packFields_toNat b he hf]
  cases b <;> simp <;> omega

/-- The fraction field of a packed pattern. -/
theorem fracField_packFields (b : Bool) {e f : Nat} (he : e < 256) (hf : f < 2 ^ 23) :
    (fracField (packFields b e f)).toNat = f := by
  rw [fracField_toNat, packFields_toNat b he hf]
  cases b <;> simp <;> omega

/-- A sign bit alone is a signed zero. -/
theorem signBit_eq_packFields (b : Bool) : signBit b = packFields b 0 0 := by cases b <;> rfl
/-- A sign bit over +infinity is a signed infinity (R13). -/
theorem signBit_or_posInf (b : Bool) : signBit b ||| posInf = packFields b 255 0 := by cases b <;> rfl
/-- A sign bit over a fraction is a packed pattern with exponent 0 (R13). -/
theorem signBit_or_ofNat (b : Bool) (m : Nat) : signBit b ||| BitVec.ofNat 32 m = packFields b 0 m := by
  simp [packFields]

/-- An exact quotient is not rounded (R13). -/
theorem rneDiv_exact (m d : Nat) : rneDiv (m * 2 ^ d) d = m := by
  have : 0 < 2 ^ d := Nat.two_pow_pos d
  simp [rneDiv, this]

/-- Rounding goes at most one above the floor (R13). -/
theorem rneDiv_le (m d : Nat) : rneDiv m d ≤ m / 2 ^ d + 1 := by
  simp only [rneDiv]; split_ifs <;> omega

/-- Rounding never goes below the floor (R13). -/
theorem le_rneDiv (m d : Nat) : m / 2 ^ d ≤ rneDiv m d := by
  simp only [rneDiv]; split_ifs <;> omega

/-- A multiple of the power it is divided by is not rounded (R13). -/
theorem rneScale_exact {m : Nat} {k : Int} {j : Nat} (h : k = -(j : Int)) : rneScale (m * 2 ^ j) k = m := by
  subst h
  unfold rneScale
  split
  case isTrue h =>
    obtain rfl : j = 0 := by omega
    simp
  case isFalse h => simp [rneDiv_exact]

/-- Scaling up is exact (R13). -/
theorem rneScale_nonneg (m j : Nat) : rneScale m j = m * 2 ^ j := by
  simp [rneScale]

/-- Scaling by a product of powers of two is scaling by their sum. -/
theorem rneScale_mul_pow (m j : Nat) (k : Int) : rneScale (m * 2 ^ j) k = rneScale m (k + j) := by
  unfold rneScale
  by_cases h0 : 0 ≤ k
  · rw [if_pos h0, if_pos (by omega), show (k + j).toNat = k.toNat + j by omega, Nat.pow_add]; ring
  · rw [if_neg h0]
    by_cases h1 : 0 ≤ k + j
    · rw [if_pos h1]
      obtain ⟨d, rfl⟩ : ∃ d : Nat, k = -(d : Int) := ⟨(-k).toNat, by omega⟩
      have : j = (-(d : Int) + j).toNat + d := by omega
      conv_lhs => rw [this]
      rw [show (- -(d : Int)).toNat = d by omega, Nat.pow_add, ← Nat.mul_assoc, rneDiv_exact]
    · rw [if_neg h1]
      obtain ⟨d, rfl⟩ : ∃ d : Nat, k = -((d + j : Nat) : Int) := ⟨(-k).toNat - j, by omega⟩
      rw [show (- -((d + j : Nat) : Int)).toNat = d + j by omega,
        show (-(-((d + j : Nat) : Int) + j)).toNat = d by omega]
      unfold rneDiv
      have hp : 0 < 2 ^ j := Nat.two_pow_pos j
      have e1 : m * 2 ^ j / 2 ^ (d + j) = m / 2 ^ d := by
        rw [Nat.pow_add, Nat.mul_div_mul_right _ _ hp]
      have e2 : m * 2 ^ j % 2 ^ (d + j) = m % 2 ^ d * 2 ^ j := by
        rw [Nat.pow_add, Nat.mul_mod_mul_right]
      rw [e1, e2]
      have e3 : 2 * (m % 2 ^ d * 2 ^ j) = 2 * (m % 2 ^ d) * 2 ^ j := by ring
      simp only [e3, Nat.pow_add, Nat.mul_lt_mul_right hp, gt_iff_lt]

/-- The place of the highest bit after a shift. -/
theorem log2_mul_pow {m : Nat} (hm : m ≠ 0) (j : Nat) : Nat.log2 (m * 2 ^ j) = Nat.log2 m + j := by
  have hp : m * 2 ^ j ≠ 0 := Nat.mul_ne_zero hm (Nat.two_pow_pos j).ne'
  rw [Nat.log2_eq_iff hp, Nat.pow_add, Nat.pow_succ, Nat.pow_add]
  have h1 := Nat.log2_self_le hm
  have h2 := Nat.lt_log2_self (n := m)
  constructor
  · exact Nat.mul_le_mul_right _ h1
  · rw [Nat.mul_right_comm, ← Nat.pow_succ]
    exact Nat.mul_lt_mul_of_pos_right h2 (Nat.two_pow_pos j)

/-- Rounding 0 gives a signed zero (R13). -/
theorem round32_zero (b : Bool) (e : Int) : round32 b ⟨0, e⟩ = packFields b 0 0 := by
  simp [round32, signBit_eq_packFields]

/-- A power of two may stand in the significand or in the exponent of what is rounded. -/
theorem round32_mul_pow (b : Bool) (m j : Nat) (e : Int) : round32 b ⟨m * 2 ^ j, e⟩ = round32 b ⟨m, e + j⟩ := by
  by_cases hm : m = 0
  · subst hm; simp [round32]
  · have hp : m * 2 ^ j ≠ 0 := Nat.mul_ne_zero hm (Nat.two_pow_pos j).ne'
    simp only [round32, hm, hp, if_false, log2_mul_pow hm]
    have e1 : ((Nat.log2 m + j : Nat) : Int) + e = (Nat.log2 m : Int) + (e + j) := by push_cast; ring
    rw [e1, rneScale_mul_pow]
    have e2 : ∀ t : Int, e - t + j = e + j - t := fun t => by ring
    simp only [e2]

/-- Packing a kept significand in the normal range (R13). -/
theorem packKept_normal (b : Bool) {m : Nat} {t : Int} (h₁ : 2 ^ 23 ≤ m) (h₃ : t + 150 < 255) :
    packKept b m t = packFields b (t + 150).toNat (m - 2 ^ 23) := by
  unfold packKept
  rw [if_neg (by omega), if_pos h₁, if_neg (by omega)]

/-- Packing a kept significand below the normal range (R13). -/
theorem packKept_subnormal (b : Bool) {m : Nat} (h : m < 2 ^ 23) (t : Int) :
    packKept b m t = packFields b 0 m := by
  unfold packKept
  split
  case isTrue h0 => subst h0; exact signBit_eq_packFields b
  case isFalse => rw [if_neg (by omega), signBit_or_ofNat]

/-- Packing a kept significand above the normal range (R13). -/
theorem packKept_overflow (b : Bool) {m : Nat} {t : Int} (h₁ : 2 ^ 23 ≤ m) (h₃ : 255 ≤ t + 150) :
    packKept b m t = packFields b 255 0 := by
  unfold packKept
  rw [if_neg (by omega), if_pos h₁, if_pos h₃, signBit_or_posInf]

/-- A magnitude of at most 24 significant bits in the normal range is not rounded (R13). -/
theorem round32_normal (b : Bool) {m p : Nat} {e : Int} (h₁ : 2 ^ p ≤ m) (h₂ : m < 2 ^ (p + 1)) (hp : p ≤ 23)
    (h₃ : -126 ≤ p + e) (h₄ : p + e ≤ 127) :
    round32 b ⟨m, e⟩ = packFields b (p + e + 127).toNat (m * 2 ^ (23 - p) - 2 ^ 23) := by
  have hm : m ≠ 0 := by have := Nat.two_pow_pos p; omega
  have hl : Nat.log2 m = p := (Nat.log2_eq_iff hm).2 ⟨h₁, h₂⟩
  have hlo : 2 ^ 23 ≤ m * 2 ^ (23 - p) := by
    calc 2 ^ 23 = 2 ^ p * 2 ^ (23 - p) := by rw [← Nat.pow_add]; congr 1; omega
      _ ≤ _ := Nat.mul_le_mul_right _ h₁
  have hhi : m * 2 ^ (23 - p) < 2 ^ 24 := by
    calc m * 2 ^ (23 - p) < 2 ^ (p + 1) * 2 ^ (23 - p) := Nat.mul_lt_mul_of_pos_right h₂ (Nat.two_pow_pos _)
      _ = 2 ^ 24 := by rw [← Nat.pow_add]; congr 1; omega
  have ht : max ((p : Int) + e - 23) (-149) = p + e - 23 := by omega
  have hk : e - ((p : Int) + e - 23) = ((23 - p : Nat) : Int) := by omega
  simp only [round32, hm, if_false, hl, ht, hk, rneScale_nonneg]
  rw [if_neg (by omega), packKept_normal b hlo (by omega)]
  congr 2
  omega

/-- A multiple of 2^-149 below the normal range is not rounded (R13, R17). -/
theorem round32_subnormal (b : Bool) {m : Nat} (h : m < 2 ^ 23) : round32 b ⟨m, -149⟩ = packFields b 0 m := by
  by_cases hm : m = 0
  · subst hm; exact round32_zero b _
  · have hl : Nat.log2 m < 23 := (Nat.log2_lt hm).2 h
    have ht : max ((Nat.log2 m : Int) + -149 - 23) (-149) = -149 := by omega
    simp only [round32, hm, if_false, ht, sub_self]
    have := rneScale_nonneg m 0
    simp only [Nat.cast_zero, Nat.pow_zero, Nat.mul_one] at this
    rw [this, if_neg (by omega), packKept_subnormal b h]

/-- A magnitude of at least 2^128 rounds to infinity (R13). -/
theorem round32_overflow (b : Bool) {m p : Nat} {e : Int} (h₁ : 2 ^ p ≤ m) (h₃ : 128 ≤ p + e) :
    round32 b ⟨m, e⟩ = packFields b 255 0 := by
  have hm : m ≠ 0 := by have := Nat.two_pow_pos p; omega
  have hl : p ≤ Nat.log2 m := (Nat.le_log2 hm).2 h₁
  have ht : max ((Nat.log2 m : Int) + e - 23) (-149) = Nat.log2 m + e - 23 := by omega
  have hlo : 2 ^ 23 ≤ rneScale m (e - (Nat.log2 m + e - 23)) := by
    have hs := Nat.log2_self_le hm
    unfold rneScale
    split
    case isTrue h =>
      calc 2 ^ 23 = 2 ^ Nat.log2 m * 2 ^ (23 - Nat.log2 m) := by rw [← Nat.pow_add]; congr 1; omega
        _ ≤ m * 2 ^ (23 - Nat.log2 m) := Nat.mul_le_mul_right _ hs
        _ = _ := by congr 2; omega
    case isFalse h =>
      have : 2 ^ 23 ≤ m / 2 ^ (-(e - (Nat.log2 m + e - 23))).toNat := by
        rw [Nat.le_div_iff_mul_le (Nat.two_pow_pos _), ← Nat.pow_add]
        refine le_trans (Nat.le_of_eq ?_) hs
        congr 1; omega
      exact le_trans this (le_rneDiv _ _)
  simp only [round32, hm, if_false, ht]
  split
  · exact packKept_overflow b (le_refl _) (by omega)
  · exact packKept_overflow b hlo (by omega)

/-- The kept significand never exceeds 2^24 (R13). -/
theorem rneScale_le {m : Nat} {k : Int} (h : Nat.log2 m + k ≤ 23) : rneScale m k ≤ 2 ^ 24 := by
  have hs := Nat.lt_log2_self (n := m)
  unfold rneScale
  split
  case isTrue h0 =>
    calc m * 2 ^ k.toNat ≤ 2 ^ (Nat.log2 m + 1) * 2 ^ k.toNat := Nat.mul_le_mul_right _ hs.le
      _ = 2 ^ (Nat.log2 m + 1 + k.toNat) := by rw [← Nat.pow_add]
      _ ≤ 2 ^ 24 := Nat.pow_le_pow_right (by omega) (by omega)
  case isFalse h0 =>
    have h1 : m / 2 ^ (-k).toNat < 2 ^ 24 := by
      rw [Nat.div_lt_iff_lt_mul (Nat.two_pow_pos _), ← Nat.pow_add]
      exact lt_of_lt_of_le hs (Nat.pow_le_pow_right (by omega) (by omega))
    have := rneDiv_le m (-k).toNat
    omega

/-- Everything packing a kept significand can give. -/
theorem packKept_form (b : Bool) {m : Nat} {t : Int} (h : m < 2 ^ 24) (ht : -149 ≤ t) :
    ∃ e f, packKept b m t = packFields b e f ∧ e ≤ 255 ∧ f < 2 ^ 23 ∧ (e = 255 → f = 0) := by
  by_cases h1 : 2 ^ 23 ≤ m
  · by_cases h2 : 255 ≤ t + 150
    · exact ⟨255, 0, packKept_overflow b h1 h2, by omega, by omega, fun _ => rfl⟩
    · exact ⟨_, _, packKept_normal b h1 (by omega), by omega, by omega, by omega⟩
  · exact ⟨0, m, packKept_subnormal b (by omega) t, by omega, by omega, by omega⟩

/-- Everything rounding can give: never a NaN. -/
theorem round32_form (b : Bool) (r : Mag) :
    ∃ e f, round32 b r = packFields b e f ∧ e ≤ 255 ∧ f < 2 ^ 23 ∧ (e = 255 → f = 0) := by
  obtain ⟨m, x⟩ := r
  by_cases hm : m = 0
  · subst hm; exact ⟨0, 0, round32_zero b x, by omega, by omega, by omega⟩
  · have hle := rneScale_le (m := m) (k := x - max ((Nat.log2 m : Int) + x - 23) (-149)) (by omega)
    simp only [round32, hm, if_false]
    split
    · exact packKept_form b (by omega) (by omega)
    · exact packKept_form b (by omega) (by omega)

/-! classes -/

/-- NaN by the fields as numbers (R11). -/
theorem classify_eq_nan (x : Word) : classify x = .nan ↔ (expField x).toNat = 255 ∧ (fracField x).toNat ≠ 0 := by
  simp only [classify, ← BitVec.toNat_inj, BitVec.toNat_ofNat]
  split_ifs <;> simp_all
/-- Infinity by the fields as numbers (R11). -/
theorem classify_eq_infinity (x : Word) : classify x = .infinity ↔ (expField x).toNat = 255 ∧ (fracField x).toNat = 0 := by
  simp only [classify, ← BitVec.toNat_inj, BitVec.toNat_ofNat]
  split_ifs <;> simp_all
/-- Zero by the fields as numbers (R11). -/
theorem classify_eq_zero (x : Word) : classify x = .zero ↔ (expField x).toNat = 0 ∧ (fracField x).toNat = 0 := by
  simp only [classify, ← BitVec.toNat_inj, BitVec.toNat_ofNat]
  split_ifs <;> simp_all
/-- Subnormal by the fields as numbers (R11). -/
theorem classify_eq_subnormal (x : Word) : classify x = .subnormal ↔ (expField x).toNat = 0 ∧ (fracField x).toNat ≠ 0 := by
  simp only [classify, ← BitVec.toNat_inj, BitVec.toNat_ofNat]
  split_ifs <;> simp_all
/-- Normal by the fields as numbers (R11). -/
theorem classify_eq_normal (x : Word) : classify x = .normal ↔ 1 ≤ (expField x).toNat ∧ (expField x).toNat ≤ 254 := by
  have := expField_lt x
  simp only [classify, ← BitVec.toNat_inj, BitVec.toNat_ofNat]
  split_ifs <;> (simp_all; try omega)

/-- The magnitude by the fields as numbers (R12). -/
theorem magnitude_eq (x : Word) : magnitude x =
    if (expField x).toNat = 0 then ⟨(fracField x).toNat, -149⟩
    else ⟨2 ^ 23 + (fracField x).toNat, (expField x).toNat - 150⟩ := by
  simp only [magnitude, ← BitVec.toNat_inj, BitVec.toNat_ofNat, Nat.zero_mod]

/-- The magnitude of a packed pattern (R12). -/
theorem magnitude_packFields (b : Bool) {e f : Nat} (he : e < 256) (hf : f < 2 ^ 23) :
    magnitude (packFields b e f) = if e = 0 then ⟨f, -149⟩ else ⟨2 ^ 23 + f, e - 150⟩ := by
  rw [magnitude_eq, expField_packFields b he hf, fracField_packFields b he hf]

/-- The magnitude of a pattern with a non-zero exponent field (R12). -/
theorem magnitude_of_ne {x : Word} (h : (expField x).toNat ≠ 0) :
    magnitude x = ⟨2 ^ 23 + (fracField x).toNat, (expField x).toNat - 150⟩ := by
  rw [magnitude_eq, if_neg h]

/-- The magnitude of a zero (R12). -/
theorem magnitude_zero {x : Word} (h1 : (expField x).toNat = 0) (h2 : (fracField x).toNat = 0) :
    magnitude x = ⟨0, -149⟩ := by
  rw [magnitude_eq, if_pos h1, h2]

/-- Rounding gives the sign it was told (R13). -/
theorem isNeg_round32 (b : Bool) (r : Mag) : isNeg (round32 b r) = b := by
  obtain ⟨e, f, h, he, hf, _⟩ := round32_form b r
  rw [h, isNeg_packFields b (by omega) hf]

/-- Rounding never gives a NaN (R13). -/
theorem round32_not_nan (b : Bool) (r : Mag) : classify (round32 b r) ≠ .nan := by
  obtain ⟨e, f, h1, he, hf, hz⟩ := round32_form b r
  rw [h1, ne_eq, classify_eq_nan, expField_packFields _ (by omega) (by omega),
    fracField_packFields _ (by omega) (by omega)]
  omega

/-- The magnitude of a finite pattern is not rounded (R12, R13). -/
theorem round32_magnitude (b : Bool) (x : Word) (h : (expField x).toNat ≠ 255) :
    round32 b (magnitude x) = packFields b (expField x).toNat (fracField x).toNat := by
  have hf := fracField_lt x
  have he := expField_lt x
  rw [magnitude_eq]
  split
  case isTrue h0 => rw [h0]; exact round32_subnormal b hf
  case isFalse h0 =>
    rw [round32_normal (p := 23) b (by omega) (by omega) (le_refl _) (by omega) (by omega)]
    have e1 : (((23 : ℕ) : ℤ) + ((expField x).toNat - 150) + 127).toNat = (expField x).toNat := by push_cast; omega
    have e2 : (2 ^ 23 + (fracField x).toNat) * 2 ^ (23 - 23) - 2 ^ 23 = (fracField x).toNat := by
      rw [Nat.sub_self, Nat.pow_zero, Nat.mul_one, Nat.add_sub_cancel_left]
    rw [e1, e2]

/-- The sign field is 1 exactly for a minus sign (R10). -/
theorem signField_word (x : Word) : signField x = if isNeg x then 1#32 else 0#32 := by
  apply BitVec.eq_of_toNat_eq
  have := x.isLt
  rw [signField_toNat, isNeg_eq]
  split <;> rename_i h <;> simp at h <;> simp <;> omega

/-- The sign field shifted to its place is the sign bit (R13). -/
theorem signField_shift (x : Word) : signField x <<< 31 = signBit (isNeg x) := by
  rw [signField_word]; cases isNeg x <;> rfl

/-- The signs of two patterns combined, at their place (R171). -/
theorem signField_xor_shift (x y : Word) :
    (signField x ^^^ signField y) <<< 31 = signBit (isNeg x ^^ isNeg y) := by
  rw [signField_word, signField_word]
  cases isNeg x <;> cases isNeg y <;> rfl

/-- A pattern of class normal or subnormal has an exponent field below 255 (R11). -/
theorem expField_ne_of_class {x : Word} (h : classify x = .normal ∨ classify x = .subnormal) :
    (expField x).toNat ≠ 255 := by
  rw [classify_eq_normal, classify_eq_subnormal] at h; omega

end Sys2Proof.Machine
end

