-- ==== Sys2Proof/Laws/State.lean ====
section
/-! SUPPORT. What each named update of the state leaves in each field: one lemma a field and update, each true by
computation. -/

namespace Sys2Proof.Machine

@[simp] theorem State.answer_opa (s : State) (r : Response) : (s.answer r).opa = s.opa := rfl
@[simp] theorem State.answer_opb (s : State) (r : Response) : (s.answer r).opb = s.opb := rfl
@[simp] theorem State.answer_opc (s : State) (r : Response) : (s.answer r).opc = s.opc := rfl
@[simp] theorem State.answer_status (s : State) (r : Response) : (s.answer r).status = s.status := rfl
@[simp] theorem State.answer_res0 (s : State) (r : Response) : (s.answer r).res0 = s.res0 := rfl
@[simp] theorem State.answer_res1 (s : State) (r : Response) : (s.answer r).res1 = s.res1 := rfl
@[simp] theorem State.answer_res2 (s : State) (r : Response) : (s.answer r).res2 = s.res2 := rfl
@[simp] theorem State.answer_phase (s : State) (r : Response) : (s.answer r).phase = s.phase := rfl
@[simp] theorem State.answer_port (s : State) (r : Response) : (s.answer r).port = s.port := rfl
@[simp] theorem State.answer_answers (s : State) (r : Response) : (s.answer r).answers = r :: s.answers := rfl
@[simp] theorem State.answer_freeCount (s : State) (r : Response) : (s.answer r).freeCount = s.freeCount := rfl

@[simp] theorem State.setOpa_opa (s : State) (v : Word) : (s.setOpa v).opa = v := rfl
@[simp] theorem State.setOpa_opb (s : State) (v : Word) : (s.setOpa v).opb = s.opb := rfl
@[simp] theorem State.setOpa_opc (s : State) (v : Word) : (s.setOpa v).opc = s.opc := rfl
@[simp] theorem State.setOpa_status (s : State) (v : Word) : (s.setOpa v).status = s.status := rfl
@[simp] theorem State.setOpa_res0 (s : State) (v : Word) : (s.setOpa v).res0 = s.res0 := rfl
@[simp] theorem State.setOpa_res1 (s : State) (v : Word) : (s.setOpa v).res1 = s.res1 := rfl
@[simp] theorem State.setOpa_res2 (s : State) (v : Word) : (s.setOpa v).res2 = s.res2 := rfl
@[simp] theorem State.setOpa_phase (s : State) (v : Word) : (s.setOpa v).phase = s.phase := rfl
@[simp] theorem State.setOpa_port (s : State) (v : Word) : (s.setOpa v).port = s.port := rfl
@[simp] theorem State.setOpa_answers (s : State) (v : Word) : (s.setOpa v).answers = s.answers := rfl
@[simp] theorem State.setOpa_freeCount (s : State) (v : Word) : (s.setOpa v).freeCount = s.freeCount := rfl

@[simp] theorem State.setOpb_opa (s : State) (v : Word) : (s.setOpb v).opa = s.opa := rfl
@[simp] theorem State.setOpb_opb (s : State) (v : Word) : (s.setOpb v).opb = v := rfl
@[simp] theorem State.setOpb_opc (s : State) (v : Word) : (s.setOpb v).opc = s.opc := rfl
@[simp] theorem State.setOpb_status (s : State) (v : Word) : (s.setOpb v).status = s.status := rfl
@[simp] theorem State.setOpb_res0 (s : State) (v : Word) : (s.setOpb v).res0 = s.res0 := rfl
@[simp] theorem State.setOpb_res1 (s : State) (v : Word) : (s.setOpb v).res1 = s.res1 := rfl
@[simp] theorem State.setOpb_res2 (s : State) (v : Word) : (s.setOpb v).res2 = s.res2 := rfl
@[simp] theorem State.setOpb_phase (s : State) (v : Word) : (s.setOpb v).phase = s.phase := rfl
@[simp] theorem State.setOpb_port (s : State) (v : Word) : (s.setOpb v).port = s.port := rfl
@[simp] theorem State.setOpb_answers (s : State) (v : Word) : (s.setOpb v).answers = s.answers := rfl
@[simp] theorem State.setOpb_freeCount (s : State) (v : Word) : (s.setOpb v).freeCount = s.freeCount := rfl

@[simp] theorem State.setOpc_opa (s : State) (v : Word) : (s.setOpc v).opa = s.opa := rfl
@[simp] theorem State.setOpc_opb (s : State) (v : Word) : (s.setOpc v).opb = s.opb := rfl
@[simp] theorem State.setOpc_opc (s : State) (v : Word) : (s.setOpc v).opc = v := rfl
@[simp] theorem State.setOpc_status (s : State) (v : Word) : (s.setOpc v).status = s.status := rfl
@[simp] theorem State.setOpc_res0 (s : State) (v : Word) : (s.setOpc v).res0 = s.res0 := rfl
@[simp] theorem State.setOpc_res1 (s : State) (v : Word) : (s.setOpc v).res1 = s.res1 := rfl
@[simp] theorem State.setOpc_res2 (s : State) (v : Word) : (s.setOpc v).res2 = s.res2 := rfl
@[simp] theorem State.setOpc_phase (s : State) (v : Word) : (s.setOpc v).phase = s.phase := rfl
@[simp] theorem State.setOpc_port (s : State) (v : Word) : (s.setOpc v).port = s.port := rfl
@[simp] theorem State.setOpc_answers (s : State) (v : Word) : (s.setOpc v).answers = s.answers := rfl
@[simp] theorem State.setOpc_freeCount (s : State) (v : Word) : (s.setOpc v).freeCount = s.freeCount := rfl

@[simp] theorem State.busError_opa (s : State) : (s.busError).opa = s.opa := rfl
@[simp] theorem State.busError_opb (s : State) : (s.busError).opb = s.opb := rfl
@[simp] theorem State.busError_opc (s : State) : (s.busError).opc = s.opc := rfl
@[simp] theorem State.busError_status (s : State) : (s.busError).status = s.status := rfl
@[simp] theorem State.busError_res0 (s : State) : (s.busError).res0 = s.res0 := rfl
@[simp] theorem State.busError_res1 (s : State) : (s.busError).res1 = s.res1 := rfl
@[simp] theorem State.busError_res2 (s : State) : (s.busError).res2 = s.res2 := rfl
@[simp] theorem State.busError_phase (s : State) : (s.busError).phase = s.phase := rfl
@[simp] theorem State.busError_port (s : State) : (s.busError).port = s.port := rfl
@[simp] theorem State.busError_answers (s : State) : (s.busError).answers = .err :: s.answers := rfl
@[simp] theorem State.busError_freeCount (s : State) : (s.busError).freeCount = s.freeCount := rfl

@[simp] theorem State.complete_opa (s : State) (a b c : Word) (st : Status) : (s.complete a b c st).opa = s.opa := rfl
@[simp] theorem State.complete_opb (s : State) (a b c : Word) (st : Status) : (s.complete a b c st).opb = s.opb := rfl
@[simp] theorem State.complete_opc (s : State) (a b c : Word) (st : Status) : (s.complete a b c st).opc = s.opc := rfl
@[simp] theorem State.complete_status (s : State) (a b c : Word) (st : Status) : (s.complete a b c st).status = st := rfl
@[simp] theorem State.complete_res0 (s : State) (a b c : Word) (st : Status) : (s.complete a b c st).res0 = a := rfl
@[simp] theorem State.complete_res1 (s : State) (a b c : Word) (st : Status) : (s.complete a b c st).res1 = b := rfl
@[simp] theorem State.complete_res2 (s : State) (a b c : Word) (st : Status) : (s.complete a b c st).res2 = c := rfl
@[simp] theorem State.complete_phase (s : State) (a b c : Word) (st : Status) : (s.complete a b c st).phase = s.phase := rfl
@[simp] theorem State.complete_port (s : State) (a b c : Word) (st : Status) : (s.complete a b c st).port = s.port := rfl
@[simp] theorem State.complete_answers (s : State) (a b c : Word) (st : Status) : (s.complete a b c st).answers = s.answers := rfl
@[simp] theorem State.complete_freeCount (s : State) (a b c : Word) (st : Status) : (s.complete a b c st).freeCount = s.freeCount := rfl

@[simp] theorem State.illegalCommand_opa (s : State) (v : Word) : (s.illegalCommand v).opa = s.opa := rfl
@[simp] theorem State.illegalCommand_opb (s : State) (v : Word) : (s.illegalCommand v).opb = s.opb := rfl
@[simp] theorem State.illegalCommand_opc (s : State) (v : Word) : (s.illegalCommand v).opc = s.opc := rfl
@[simp] theorem State.illegalCommand_status (s : State) (v : Word) : (s.illegalCommand v).status = Status.illegal (opField v) := rfl
@[simp] theorem State.illegalCommand_res0 (s : State) (v : Word) : (s.illegalCommand v).res0 = 0#32 := rfl
@[simp] theorem State.illegalCommand_res1 (s : State) (v : Word) : (s.illegalCommand v).res1 = 0#32 := rfl
@[simp] theorem State.illegalCommand_res2 (s : State) (v : Word) : (s.illegalCommand v).res2 = 0#32 := rfl
@[simp] theorem State.illegalCommand_phase (s : State) (v : Word) : (s.illegalCommand v).phase = s.phase := rfl
@[simp] theorem State.illegalCommand_port (s : State) (v : Word) : (s.illegalCommand v).port = s.port := rfl
@[simp] theorem State.illegalCommand_answers (s : State) (v : Word) : (s.illegalCommand v).answers = s.answers := rfl
@[simp] theorem State.illegalCommand_freeCount (s : State) (v : Word) : (s.illegalCommand v).freeCount = s.freeCount := rfl

@[simp] theorem State.clear_opa (s : State) : (s.clear).opa = 0#32 := rfl
@[simp] theorem State.clear_opb (s : State) : (s.clear).opb = 0#32 := rfl
@[simp] theorem State.clear_opc (s : State) : (s.clear).opc = 0#32 := rfl
@[simp] theorem State.clear_status (s : State) : (s.clear).status = Status.reset := rfl
@[simp] theorem State.clear_res0 (s : State) : (s.clear).res0 = 0#32 := rfl
@[simp] theorem State.clear_res1 (s : State) : (s.clear).res1 = 0#32 := rfl
@[simp] theorem State.clear_res2 (s : State) : (s.clear).res2 = 0#32 := rfl
@[simp] theorem State.clear_phase (s : State) : (s.clear).phase = s.phase := rfl
@[simp] theorem State.clear_port (s : State) : (s.clear).port = s.port := rfl
@[simp] theorem State.clear_answers (s : State) : (s.clear).answers = s.answers := rfl
@[simp] theorem State.clear_freeCount (s : State) : (s.clear).freeCount = s.freeCount := rfl

@[simp] theorem State.assertReset_opa (s : State) : (s.assertReset).opa = 0#32 := rfl
@[simp] theorem State.assertReset_opb (s : State) : (s.assertReset).opb = 0#32 := rfl
@[simp] theorem State.assertReset_opc (s : State) : (s.assertReset).opc = 0#32 := rfl
@[simp] theorem State.assertReset_status (s : State) : (s.assertReset).status = Status.reset := rfl
@[simp] theorem State.assertReset_res0 (s : State) : (s.assertReset).res0 = 0#32 := rfl
@[simp] theorem State.assertReset_res1 (s : State) : (s.assertReset).res1 = 0#32 := rfl
@[simp] theorem State.assertReset_res2 (s : State) : (s.assertReset).res2 = 0#32 := rfl
@[simp] theorem State.assertReset_phase (s : State) : (s.assertReset).phase = .inReset := rfl
@[simp] theorem State.assertReset_port (s : State) : (s.assertReset).port = s.port := rfl
@[simp] theorem State.assertReset_answers (s : State) : (s.assertReset).answers = s.answers := rfl
@[simp] theorem State.assertReset_freeCount (s : State) : (s.assertReset).freeCount = s.freeCount := rfl

@[simp] theorem State.issue_opa (s : State) (a : Access) : (s.issue a).opa = s.opa := rfl
@[simp] theorem State.issue_opb (s : State) (a : Access) : (s.issue a).opb = s.opb := rfl
@[simp] theorem State.issue_opc (s : State) (a : Access) : (s.issue a).opc = s.opc := rfl
@[simp] theorem State.issue_status (s : State) (a : Access) : (s.issue a).status = s.status := rfl
@[simp] theorem State.issue_res0 (s : State) (a : Access) : (s.issue a).res0 = s.res0 := rfl
@[simp] theorem State.issue_res1 (s : State) (a : Access) : (s.issue a).res1 = s.res1 := rfl
@[simp] theorem State.issue_res2 (s : State) (a : Access) : (s.issue a).res2 = s.res2 := rfl
@[simp] theorem State.issue_phase (s : State) (a : Access) : (s.issue a).phase = s.phase := rfl
@[simp] theorem State.issue_port (s : State) (a : Access) : (s.issue a).port = .access a :: s.port := rfl
@[simp] theorem State.issue_answers (s : State) (a : Access) : (s.issue a).answers = s.answers := rfl
@[simp] theorem State.issue_freeCount (s : State) (a : Access) : (s.issue a).freeCount = s.freeCount := rfl

@[simp] theorem State.withFetchWord_opa (s : State) (n w : Nat) : (s.withFetchWord n w).opa = s.opa := rfl
@[simp] theorem State.withFetchWord_opb (s : State) (n w : Nat) : (s.withFetchWord n w).opb = s.opb := rfl
@[simp] theorem State.withFetchWord_opc (s : State) (n w : Nat) : (s.withFetchWord n w).opc = s.opc := rfl
@[simp] theorem State.withFetchWord_status (s : State) (n w : Nat) : (s.withFetchWord n w).status = s.status := rfl
@[simp] theorem State.withFetchWord_res0 (s : State) (n w : Nat) : (s.withFetchWord n w).res0 = s.res0 := rfl
@[simp] theorem State.withFetchWord_res1 (s : State) (n w : Nat) : (s.withFetchWord n w).res1 = s.res1 := rfl
@[simp] theorem State.withFetchWord_res2 (s : State) (n w : Nat) : (s.withFetchWord n w).res2 = s.res2 := rfl
@[simp] theorem State.withFetchWord_phase (s : State) (n w : Nat) : (s.withFetchWord n w).phase = .serving := rfl
@[simp] theorem State.withFetchWord_port (s : State) (n w : Nat) : (s.withFetchWord n w).port = .access (ctrlWrite (tableWord n w)) :: s.port := rfl
@[simp] theorem State.withFetchWord_answers (s : State) (n w : Nat) : (s.withFetchWord n w).answers = s.answers := rfl
@[simp] theorem State.withFetchWord_freeCount (s : State) (n w : Nat) : (s.withFetchWord n w).freeCount = s.freeCount := rfl

@[simp] theorem State.releaseReset_opa (s : State) : s.releaseReset.opa = s.opa := by
  unfold State.releaseReset; split <;> rfl
@[simp] theorem State.releaseReset_opb (s : State) : s.releaseReset.opb = s.opb := by
  unfold State.releaseReset; split <;> rfl
@[simp] theorem State.releaseReset_opc (s : State) : s.releaseReset.opc = s.opc := by
  unfold State.releaseReset; split <;> rfl
@[simp] theorem State.releaseReset_status (s : State) : s.releaseReset.status = s.status := by
  unfold State.releaseReset; split <;> rfl
@[simp] theorem State.releaseReset_res0 (s : State) : s.releaseReset.res0 = s.res0 := by
  unfold State.releaseReset; split <;> rfl
@[simp] theorem State.releaseReset_res1 (s : State) : s.releaseReset.res1 = s.res1 := by
  unfold State.releaseReset; split <;> rfl
@[simp] theorem State.releaseReset_res2 (s : State) : s.releaseReset.res2 = s.res2 := by
  unfold State.releaseReset; split <;> rfl
@[simp] theorem State.releaseReset_port (s : State) : s.releaseReset.port = s.port := by
  unfold State.releaseReset; split <;> rfl
@[simp] theorem State.releaseReset_answers (s : State) : s.releaseReset.answers = s.answers := by
  unfold State.releaseReset; split <;> rfl
@[simp] theorem State.releaseReset_freeCount (s : State) : s.releaseReset.freeCount = s.freeCount := by
  unfold State.releaseReset; split <;> rfl
@[simp] theorem State.cutAnswer_opa (s : State) (c : Option Bool) : (s.cutAnswer c).opa = s.opa := by
  rcases c with _ | _ | _ <;> rfl
@[simp] theorem State.cutAnswer_opb (s : State) (c : Option Bool) : (s.cutAnswer c).opb = s.opb := by
  rcases c with _ | _ | _ <;> rfl
@[simp] theorem State.cutAnswer_opc (s : State) (c : Option Bool) : (s.cutAnswer c).opc = s.opc := by
  rcases c with _ | _ | _ <;> rfl
@[simp] theorem State.cutAnswer_status (s : State) (c : Option Bool) : (s.cutAnswer c).status = s.status := by
  rcases c with _ | _ | _ <;> rfl
@[simp] theorem State.cutAnswer_res0 (s : State) (c : Option Bool) : (s.cutAnswer c).res0 = s.res0 := by
  rcases c with _ | _ | _ <;> rfl
@[simp] theorem State.cutAnswer_res1 (s : State) (c : Option Bool) : (s.cutAnswer c).res1 = s.res1 := by
  rcases c with _ | _ | _ <;> rfl
@[simp] theorem State.cutAnswer_res2 (s : State) (c : Option Bool) : (s.cutAnswer c).res2 = s.res2 := by
  rcases c with _ | _ | _ <;> rfl
@[simp] theorem State.cutAnswer_phase (s : State) (c : Option Bool) : (s.cutAnswer c).phase = s.phase := by
  rcases c with _ | _ | _ <;> rfl
@[simp] theorem State.cutAnswer_port (s : State) (c : Option Bool) : (s.cutAnswer c).port = s.port := by
  rcases c with _ | _ | _ <;> rfl
@[simp] theorem State.cutAnswer_freeCount (s : State) (c : Option Bool) : (s.cutAnswer c).freeCount = s.freeCount := by
  rcases c with _ | _ | _ <;> rfl

end Sys2Proof.Machine
end

