-- ==== Sys2Proof/Laws/Bus.lean ====
section
/-! SUPPORT. What the port's shared operations can do, said once: selecting a register, serving an access, a command, and one
step. -/

namespace Sys2Proof.Machine

/-- Every offset that is a multiple of 4 holds one register, and no other offset does (R62, R71). -/
theorem atOffset_isSome_iff (off : Offset) : (Reg.atOffset off).isSome = true ↔ off.toNat % 4 = 0 := by
  revert off; decide

/-- The register at an offset is the one whose offset it is (R30). -/
theorem atOffset_eq_some_iff (off : Offset) (r : Reg) : Reg.atOffset off = some r ↔ off = r.off := by
  cases r <;> revert off <;> decide

/-- An access selects no register exactly when it is not an aligned word access (R63). -/
theorem selectReg_eq_none_iff (off : Offset) (n : Nat) :
    selectReg off n = none ↔ n ≠ 4 ∨ off.toNat % 4 ≠ 0 := by
  unfold selectReg Config.registerBytes
  split
  case isTrue h => simpa using h
  case isFalse h =>
    have h4 : off.toNat % 4 = 0 := by omega
    have := (atOffset_isSome_iff off).2 h4
    constructor
    · intro hn; simp [hn] at this
    · intro hn; omega

/-- An access selects the register whose offset it names, when it is a word access (R64). -/
theorem selectReg_eq_some_iff (off : Offset) (n : Nat) (r : Reg) :
    selectReg off n = some r ↔ n = 4 ∧ off = r.off := by
  unfold selectReg Config.registerBytes
  split
  case isTrue h =>
    simp only [reduceCtorEq, false_iff]
    rintro ⟨rfl, rfl⟩
    rcases h with h | h
    · exact h rfl
    · cases r <;> exact h (by decide)
  case isFalse h =>
    rw [atOffset_eq_some_iff]
    constructor
    · intro e; exact ⟨by omega, e⟩
    · exact fun e => e.2

@[simp] theorem selectReg_off (r : Reg) : selectReg r.off 4 = some r :=
  (selectReg_eq_some_iff _ _ _).2 ⟨rfl, rfl⟩

/-- A word read at a register's offset returns the register (R64). -/
@[simp] theorem busRead_reg (r : Reg) (s : State) : busRead r.off 4 s = .okRead (s.readReg r) := by
  simp [busRead]

/-- An access that is no aligned word read is a bus error (R63). -/
theorem busRead_err {off : Offset} {n : Nat} (h : n ≠ 4 ∨ off.toNat % 4 ≠ 0) (s : State) :
    busRead off n s = .err := by
  simp [busRead, (selectReg_eq_none_iff off n).2 h]

/-- A word write at a register's offset, register by register (R65). -/
theorem busWrite_reg (r : Reg) (v : Word) (s : State) : busWrite r.off 4 v s =
    match r with
    | .opa => .next ((s.setOpa v).answer .okWrite)
    | .opb => .next ((s.setOpb v).answer .okWrite)
    | .opc => .next ((s.setOpc v).answer .okWrite)
    | .ctrl => answering .okWrite (command v s)
    | .status => .next s.busError
    | .res0 => .next s.busError
    | .res1 => .next s.busError
    | .res2 => .next s.busError := by
  cases r <;> simp [busWrite]

/-- A write that is no aligned word write is a bus error (R63). -/
theorem busWrite_err {off : Offset} {n : Nat} (h : n ≠ 4 ∨ off.toNat % 4 ≠ 0) (v : Word) (s : State) :
    busWrite off n v s = .next s.busError := by
  simp [busWrite, (selectReg_eq_none_iff off n).2 h]

/-- Every command completes, changing RES0..RES2 and STATUS alone (R92). -/
theorem exec_completes (i : Instr) (s : State) : ∃ a b c st, exec i s = .next (s.complete a b c st) := by
  cases i <;> exact ⟨_, _, _, _, rfl⟩

/-- Every CTRL word completes, changing RES0..RES2 and STATUS alone (R92, R203). -/
theorem command_completes (v : Word) (s : State) : ∃ a b c st, command v s = .next (s.complete a b c st) := by
  unfold command
  split
  · exact exec_completes _ _
  · exact ⟨_, _, _, _, rfl⟩

/-- What serving an access can do: a read changes nothing, a write changes one operand register or is a command or is a bus
error, and each records one response. -/
theorem serve_cases (a : Access) (s : State) :
    (∃ n, a.req = .read n ∧ serve a s = .next (s.answer (busRead a.off n s))) ∨
    (∃ n v, a.req = .write n v ∧
      ((selectReg a.off n = some .opa ∧ serve a s = .next ((s.setOpa v).answer .okWrite)) ∨
       (selectReg a.off n = some .opb ∧ serve a s = .next ((s.setOpb v).answer .okWrite)) ∨
       (selectReg a.off n = some .opc ∧ serve a s = .next ((s.setOpc v).answer .okWrite)) ∨
       (selectReg a.off n = some .ctrl ∧ ∃ t, command v s = .next t ∧ serve a s = .next (t.answer .okWrite)) ∨
       serve a s = .next s.busError)) := by
  obtain ⟨off, req⟩ := a
  cases req with
  | read n => exact .inl ⟨n, rfl, rfl⟩
  | write n v =>
    refine .inr ⟨n, v, rfl, ?_⟩
    simp only [serve, busWrite]
    cases h : selectReg off n with
    | none => simp
    | some r =>
      cases r <;> simp
      obtain ⟨a, b, c, st, e⟩ := command_completes v s
      simp [e, answering]

/-- Serving an access gives a next state that differs in the registers and in one more response only. -/
theorem serve_next (a : Access) (s : State) :
    ∃ t r, serve a s = .next t ∧ t.phase = s.phase ∧ t.port = s.port ∧ t.freeCount = s.freeCount ∧
      t.answers = r :: s.answers := by
  rcases serve_cases a s with ⟨n, _, h⟩ | ⟨n, v, _, ⟨_, h⟩ | ⟨_, h⟩ | ⟨_, h⟩ | ⟨_, t, hc, h⟩ | h⟩
  · exact ⟨_, _, h, rfl, rfl, rfl, rfl⟩
  · exact ⟨_, _, h, rfl, rfl, rfl, rfl⟩
  · exact ⟨_, _, h, rfl, rfl, rfl, rfl⟩
  · exact ⟨_, _, h, rfl, rfl, rfl, rfl⟩
  · obtain ⟨a, b, c, st, e⟩ := command_completes v s
    rw [e] at hc
    cases hc
    exact ⟨_, _, h, rfl, rfl, rfl, rfl⟩
  · exact ⟨_, _, h, rfl, rfl, rfl, rfl⟩

/-- A step with nothing to come leaves the state. -/
theorem step_idle {s : State} (h : s.port = []) : step s = .next s := by
  simp [step, handleNext, h]

/-- A step handles the next event. -/
theorem step_event {s : State} {e : Event} {rest : List Event} (h : s.port = e :: rest) :
    step s = handle e { s with port := rest } := by
  simp [step, handleNext, h]

/-- A step serves the access that arrives. -/
theorem step_access {s : State} {a : Access} {rest : List Event} (hp : s.phase = .serving)
    (h : s.port = .access a :: rest) : step s = serve a { s with port := rest } := by
  simp [step_event h, handle, arrive, hp]

/-- A step on a CTRL write runs its command and answers OK. -/
theorem step_ctrlWrite {s : State} {v : Word} {rest : List Event} (hp : s.phase = .serving)
    (h : s.port = .access (ctrlWrite v) :: rest) :
    step s = answering .okWrite (command v { s with port := rest }) := by
  rw [step_access hp h]
  simp [serve, ctrlWrite, busWrite, Config.registerBytes]

/-- What handling an event can do when it gives a next state: the access at an offset is served, or one of the four other
events happens. -/
theorem handle_next_cases {e : Event} {s t : State} (h : handle e s = .next t) :
    (∃ a, s.phase = .serving ∧ serve a s = .next t) ∨ t = s.assertReset ∨
      (s.phase = .serving ∧ t = s.assertResetDuringCommand) ∨ t = s.releaseReset ∨ t = s.powerUp := by
  have arrival : ∀ a, arrive a s = .next t → ∃ a, s.phase = .serving ∧ serve a s = .next t := by
    intro a ha
    unfold arrive at ha
    cases hp : s.phase <;> simp only [hp, reduceCtorEq] at ha
    exact ⟨a, rfl, ha⟩
  cases e with
  | access a => exact .inl (arrival a h)
  | host ha =>
    simp only [handle, arriveAt] at h
    split at h
    · exact .inl (arrival _ h)
    · cases h
  | resetAsserted => cases h; exact .inr (.inl rfl)
  | resetDuringCommand v =>
    simp only [handle, cutCommand] at h
    cases hp : s.phase <;> simp only [hp, reduceCtorEq] at h
    cases h; exact .inr (.inr (.inl ⟨rfl, rfl⟩))
  | resetReleased => cases h; exact .inr (.inr (.inr (.inl rfl)))
  | powerApplied => cases h; exact .inr (.inr (.inr (.inr rfl)))

/-- An offset inside the window reaches the port at that offset (R61). -/
theorem windowOffset_of_mem {base addr : Nat} (h₁ : base ≤ addr) (h₂ : addr < base + 32) :
    windowOffset base addr = some (BitVec.ofNat 5 (addr - base)) := by
  simp [windowOffset, Config.windowBytes, h₁, h₂]

/-- An address outside the window reaches nothing (R61). -/
theorem windowOffset_of_not_mem {base addr : Nat} (h : addr < base ∨ base + 32 ≤ addr) :
    windowOffset base addr = none := by
  unfold windowOffset Config.windowBytes
  rw [if_neg (by omega)]

/-- An address has an offset exactly when it lies in the window (R61). -/
theorem windowOffset_isSome_iff (base addr : Nat) :
    (∃ o, windowOffset base addr = some o) ↔ base ≤ addr ∧ addr < base + 32 := by
  by_cases h : base ≤ addr ∧ addr < base + 32
  · simp [windowOffset_of_mem h.1 h.2, h]
  · simp [windowOffset_of_not_mem (base := base) (addr := addr) (by omega), h]

/-- A command neither reads nor changes what is still to arrive (R92). -/
theorem command_port (v : Word) {s t : State} (h : command v s = .next t) (p : List Event) :
    command v { s with port := p } = .next { t with port := p } := by
  unfold command at h ⊢
  split at h
  · rename_i i _
    cases i <;> cases h <;> rfl
  · cases h; rfl

/-- Serving an access neither reads nor changes what is still to arrive (R73). -/
theorem serve_port (a : Access) {s t : State} (h : serve a s = .next t) (p : List Event) :
    serve a { s with port := p } = .next { t with port := p } := by
  obtain ⟨off, req⟩ := a
  cases req with
  | read n =>
    cases h
    simp only [serve, busRead]
    cases selectReg off n with
    | none => rfl
    | some r => cases r <;> rfl
  | write n v =>
    simp only [serve, busWrite] at h ⊢
    cases hr : selectReg off n with
    | none => rw [hr] at h; cases h; rfl
    | some r =>
      rw [hr] at h
      cases r
      case ctrl =>
        obtain ⟨a, b, c, st, e⟩ := command_completes v s
        simp only [e, answering] at h
        cases h
        simp only [command_port v e p, answering]
        rfl
      all_goals cases h; rfl

/-- Handling an event neither reads nor changes what is still to arrive behind it (R73). -/
theorem handle_port {e : Event} {s t : State} (h : handle e s = .next t) (p : List Event) :
    handle e { s with port := p } = .next { t with port := p } := by
  have arrival : ∀ a, arrive a s = .next t → arrive a { s with port := p } = .next { t with port := p } := by
    intro a ha
    rcases s with ⟨oa, ob, oc, st, r0, r1, r2, phase, q, an, fc⟩
    cases phase
    case serving => exact serve_port a ha p
    all_goals cases ha
  cases e with
  | access a => exact arrival a h
  | host x =>
    simp only [handle, arriveAt] at h ⊢
    split at h
    · exact arrival _ h
    · cases h
  | resetAsserted => cases h; rfl
  | resetDuringCommand v =>
    simp only [handle, cutCommand] at h ⊢
    cases hp : s.phase <;> simp only [hp, reduceCtorEq] at h
    cases h
    simp only [State.assertResetDuringCommand]
    rcases Config.answerCutByReset s.freeCount with _ | _ | _ <;> rfl
  | resetReleased =>
    rcases s with ⟨oa, ob, oc, st, r0, r1, r2, phase, q, an, fc⟩
    cases phase <;> cases h <;> rfl
  | powerApplied => cases h; rfl

/-- An access that DCF32 serves, whoever issued it, leaves a state that differs in the registers and in one more response
only (R73). -/
theorem handle_servedAccess {e : Event} {s : State} (hp : s.phase = .serving) (he : servedAccess e) :
    ∃ t r, handle e s = .next t ∧ t.phase = .serving ∧ t.port = s.port ∧ t.answers = r :: s.answers := by
  have arrival : ∀ a, ∃ t r, arrive a s = .next t ∧ t.phase = .serving ∧ t.port = s.port ∧ t.answers = r :: s.answers := by
    intro a
    obtain ⟨t, r, h1, h2, h3, _, h5⟩ := serve_next a s
    exact ⟨t, r, by simp only [arrive, hp, h1], h2.trans hp, h3, h5⟩
  cases e with
  | access a => exact arrival a
  | host x =>
    obtain ⟨o, ho⟩ := (windowOffset_isSome_iff Config.fdBase x.addr).2 he
    simp only [handle, arriveAt, ho]
    exact arrival _
  | _ => cases he

/-- A state holds its own registers. -/
theorem SameRegisters.refl (s : State) : SameRegisters s s := ⟨rfl, rfl, rfl, rfl, rfl, rfl, rfl⟩

/-- A state whose registers are at their reset values fits together (R230). -/
theorem Consistent.of_reset {s : State} (h : SameRegisters s State.reset) : Consistent s := by
  obtain ⟨_, _, _, h4, h5, h6, h7⟩ := h
  constructor <;> simp [h4, h5, h6, h7, State.reset, Status.reset]

/-- Fitting together depends on STATUS and the results alone. -/
theorem Consistent.congr {s t : State} (h : Consistent s) (hst : s.status = t.status) (h0 : s.res0 = t.res0)
    (h1 : s.res1 = t.res1) (h2 : s.res2 = t.res2) : Consistent t := by
  obtain ⟨a, b, c, d, e, f, g, i⟩ := h
  rw [hst, h0, h1, h2] at *
  exact ⟨a, b, c, d, e, f, g, i⟩

end Sys2Proof.Machine
end

