-- ==== Sys2Proof/Laws/Exact.lean ====
section
/-! SUPPORT. The integer form of binary32 beside the rational one: the value of a magnitude, of a pattern and of what rounding
gives, and the rounding of an integer quotient as RNE (spec R12, R13). -/

namespace Sys2Proof.Machine

/-- The value of a magnitude, with the radix written out (R7). -/
theorem Mag.value_eq (r : Mag) : r.value = (r.sig : ℚ) * 2 ^ r.exp := by
  simp [Mag.value, Config.radix]

/-- A magnitude's value is never negative. -/
theorem Mag.value_nonneg (r : Mag) : 0 ≤ r.value := by
  rw [Mag.value_eq]; positivity

/-- The product of magnitudes is exact (R171). -/
theorem Mag.value_mul (a b : Mag) : (a.mul b).value = a.value * b.value := by
  simp only [Mag.value_eq, Mag.mul, Nat.cast_mul, zpow_add₀ (two_ne_zero' ℚ)]
  ring

/-- A magnitude written at a lower exponent keeps its value. -/
theorem Mag.value_scale {m : Nat} {e f : Int} (h : f ≤ e) :
    ((m * 2 ^ (e - f).toNat : ℕ) : ℚ) * 2 ^ f = (m : ℚ) * 2 ^ e := by
  obtain ⟨d, rfl⟩ : ∃ d : ℕ, e = f + d := ⟨(e - f).toNat, by omega⟩
  rw [show (f + (d : ℤ) - f).toNat = d by omega, zpow_add₀ (two_ne_zero' ℚ)]
  push_cast
  rw [zpow_natCast]; ring

/-- The sum of magnitudes is exact (R134). -/
theorem Mag.value_add (a b : Mag) : (a.add b).value = a.value + b.value := by
  simp only [Mag.value_eq, Mag.add, Nat.cast_add, add_mul]
  rw [Mag.value_scale (min_le_left _ _), Mag.value_scale (min_le_right _ _)]

/-- Val32 is the sign times the magnitude (R12). -/
theorem val32_eq (x : Word) : val32 x = (if isNeg x then -1 else 1) * (magnitude x).value := by
  simp only [val32, magnitude_eq, Mag.value_eq]
  split_ifs <;> push_cast <;> ring

/-- The absolute value of Val32 is the magnitude (R12). -/
theorem abs_val32 (x : Word) : |val32 x| = (magnitude x).value := by
  rw [val32_eq, abs_mul, abs_of_nonneg (Mag.value_nonneg _)]
  split_ifs <;> simp

/-- RNE of a quotient by a power of two, in integers (R13). -/
theorem rneDiv_eq_rne (m d : Nat) : rneDiv m d = rne ((m : ℚ) / 2 ^ d) := by
  have hp : (0 : ℚ) < 2 ^ d := by positivity
  have hfl : ⌊(m : ℚ) / 2 ^ d⌋₊ = m / 2 ^ d := by
    have := Nat.floor_div_eq_div (K := ℚ) m (2 ^ d)
    push_cast at this
    exact this
  have hrest : (m : ℚ) / 2 ^ d - ((m / 2 ^ d : ℕ) : ℚ) = ((m % 2 ^ d : ℕ) : ℚ) / 2 ^ d := by
    have h := Nat.div_add_mod m (2 ^ d)
    have h' : ((2 ^ d * (m / 2 ^ d) + m % 2 ^ d : ℕ) : ℚ) = (m : ℚ) := by rw [h]
    push_cast at h'
    rw [eq_div_iff hp.ne', sub_mul, div_mul_cancel₀ _ hp.ne']
    linarith
  have below : ((m % 2 ^ d : ℕ) : ℚ) / 2 ^ d < 1 / 2 ↔ 2 * (m % 2 ^ d) < 2 ^ d := by
    rw [div_lt_div_iff₀ hp two_pos, one_mul, mul_comm]
    exact_mod_cast Iff.rfl
  have above : ((m % 2 ^ d : ℕ) : ℚ) / 2 ^ d > 1 / 2 ↔ 2 * (m % 2 ^ d) > 2 ^ d := by
    rw [gt_iff_lt, div_lt_div_iff₀ two_pos hp, one_mul, mul_comm (_ : ℚ) 2]
    exact_mod_cast Iff.rfl
  simp only [rneDiv, rne, hfl, hrest, below, above]

/-- RNE of an integer is that integer (R13). -/
theorem rne_natCast (n : ℕ) : rne (n : ℚ) = n := by
  simp [rne]

/-- RNE of a product with a power of two, in integers (R13). -/
theorem rneScale_eq_rne (m : Nat) (k : Int) : rneScale m k = rne ((m : ℚ) * 2 ^ k) := by
  unfold rneScale
  split
  case isTrue h =>
    obtain ⟨n, rfl⟩ := Int.eq_ofNat_of_zero_le h
    have : (m : ℚ) * 2 ^ ((n : ℕ) : ℤ) = ((m * 2 ^ n : ℕ) : ℚ) := by push_cast; rw [zpow_natCast]
    rw [this, rne_natCast]; simp
  case isFalse h =>
    obtain ⟨n, rfl⟩ : ∃ n : ℕ, k = -(n : ℤ) := ⟨(-k).toNat, by omega⟩
    rw [rneDiv_eq_rne, zpow_neg, zpow_natCast, div_eq_mul_inv]
    simp

/-- The place of the highest bit of a magnitude (R13: q with 2^q ≤ r < 2^(q+1)). -/
theorem log_two_mul_zpow {m : Nat} (hm : m ≠ 0) (e : Int) :
    Int.log 2 ((m : ℚ) * 2 ^ e) = Nat.log2 m + e := by
  have hpos : (0 : ℚ) < (m : ℚ) * 2 ^ e := by
    have : (0 : ℚ) < m := by exact_mod_cast Nat.pos_of_ne_zero hm
    positivity
  have h1 := Nat.log2_self_le hm
  have h2 := Nat.lt_log2_self (n := m)
  apply le_antisymm
  · rw [← Int.lt_add_one_iff, ← Int.lt_zpow_iff_log_lt (by norm_num) hpos]
    rw [show (Nat.log2 m : ℤ) + e + 1 = ((Nat.log2 m + 1 : ℕ) : ℤ) + e by push_cast; ring]
    push_cast
    rw [zpow_add₀ (two_ne_zero' ℚ), ← Nat.cast_succ, zpow_natCast]
    have : (m : ℚ) < 2 ^ (Nat.log2 m + 1) := by exact_mod_cast h2
    exact mul_lt_mul_of_pos_right this (by positivity)
  · rw [← Int.zpow_le_iff_le_log (by norm_num) hpos]
    push_cast
    rw [zpow_add₀ (two_ne_zero' ℚ), zpow_natCast]
    have : (2 : ℚ) ^ (Nat.log2 m) ≤ m := by exact_mod_cast h1
    exact mul_le_mul_of_nonneg_right this (by positivity)

/-- Magnitudes of one value are rounded alike. -/
theorem round32_congr {b : Bool} {r r' : Mag} (h : r.value = r'.value) : round32 b r = round32 b r' := by
  have lower : ∀ {m n : Nat} {e f : Int}, f ≤ e → (m : ℚ) * 2 ^ e = (n : ℚ) * 2 ^ f →
      round32 b ⟨m, e⟩ = round32 b ⟨n, f⟩ := by
    intro m n e f hef hv
    have hn : n = m * 2 ^ (e - f).toNat := by
      rw [← Mag.value_scale hef] at hv
      exact_mod_cast (mul_right_cancel₀ (zpow_ne_zero f (two_ne_zero' ℚ)) hv).symm
    rw [hn, round32_mul_pow]
    congr 2
    omega
  rw [Mag.value_eq, Mag.value_eq] at h
  rcases le_total r'.exp r.exp with hle | hle
  · exact lower hle h
  · exact (lower hle h.symm).symm

/-- A magnitude of at most 24 significant bits that is a multiple of 2^-149 below 2^128 is not rounded (R12, R13, R17). -/
theorem value_magnitude_round32 (b : Bool) {m : Nat} {e : Int} (hm : m < 2 ^ 24) (he : -149 ≤ e) (hb : e ≤ 104) :
    (magnitude (round32 b ⟨m, e⟩)).value = (m : ℚ) * 2 ^ e ∧ (expField (round32 b ⟨m, e⟩)).toNat ≠ 255 := by
  by_cases h0 : m = 0
  · subst h0
    rw [round32_zero, magnitude_packFields b (by omega) (by omega), expField_packFields b (by omega) (by omega)]
    simp [Mag.value_eq]
  · obtain ⟨p, h1, h2⟩ : ∃ p, 2 ^ p ≤ m ∧ m < 2 ^ (p + 1) := ⟨Nat.log2 m, Nat.log2_self_le h0, Nat.lt_log2_self⟩
    have hp : p ≤ 23 := by
      by_contra hc
      have := Nat.pow_le_pow_right (n := 2) (by omega) (show 24 ≤ p by omega)
      omega
    by_cases hn : -126 ≤ (p : Int) + e
    · have hlo : 2 ^ 23 ≤ m * 2 ^ (23 - p) := by
        calc 2 ^ 23 = 2 ^ p * 2 ^ (23 - p) := by rw [← Nat.pow_add]; congr 1; omega
          _ ≤ _ := Nat.mul_le_mul_right _ h1
      have hhi : m * 2 ^ (23 - p) < 2 ^ 24 := by
        calc m * 2 ^ (23 - p) < 2 ^ (p + 1) * 2 ^ (23 - p) := Nat.mul_lt_mul_of_pos_right h2 (Nat.two_pow_pos _)
          _ = 2 ^ 24 := by rw [← Nat.pow_add]; congr 1; omega
      rw [round32_normal b h1 h2 hp hn (by omega), magnitude_packFields b (by omega) (by omega),
        expField_packFields b (by omega) (by omega), if_neg (by omega)]
      refine ⟨?_, by omega⟩
      rw [Mag.value_eq]
      simp only
      rw [Nat.add_sub_of_le hlo]
      rw [show (((p : ℤ) + e + 127).toNat : ℤ) - 150 = e - ((23 - p : ℕ) : ℤ) by omega]
      push_cast
      rw [zpow_sub₀ (two_ne_zero' ℚ), zpow_natCast]
      field_simp
    · have hs : m * 2 ^ (e + 149).toNat < 2 ^ 23 := by
        calc m * 2 ^ (e + 149).toNat < 2 ^ (p + 1) * 2 ^ (e + 149).toNat :=
              Nat.mul_lt_mul_of_pos_right h2 (Nat.two_pow_pos _)
          _ = 2 ^ (p + 1 + (e + 149).toNat) := by rw [← Nat.pow_add]
          _ ≤ 2 ^ 23 := Nat.pow_le_pow_right (by omega) (by omega)
      have : round32 b ⟨m, e⟩ = packFields b 0 (m * 2 ^ (e + 149).toNat) := by
        rw [← round32_subnormal b hs, round32_mul_pow]
        congr 2; omega
      rw [this, magnitude_packFields b (by omega) hs, expField_packFields b (by omega) hs]
      refine ⟨?_, by omega⟩
      rw [if_pos rfl, Mag.value_eq]
      simpa using Mag.value_scale (m := m) he

/-- Val32 of what such a magnitude rounds to (R12, R13). -/
theorem val32_round32 (b : Bool) {m : Nat} {e : Int} (hm : m < 2 ^ 24) (he : -149 ≤ e) (hb : e ≤ 104) :
    val32 (round32 b ⟨m, e⟩) = (if b then -1 else 1) * ((m : ℚ) * 2 ^ e) := by
  rw [val32_eq, isNeg_round32, (value_magnitude_round32 b hm he hb).1]

end Sys2Proof.Machine
end

