-- ==== Sys2Proof/Laws/FieldDecoder.lean ====
section
/-! SUPPORT. What DECODE's three decoders and its domain test give, as rounded numbers (spec R131 to R139). -/

namespace Sys2Proof.Machine

/-- The domain test on numbers (R139). -/
theorem outOfDomain_eq (a b c : Word) :
    outOfDomain a b c = decide (a.toNat > 1 ∨ b.toNat > 255 ∨ c.toNat > 0x7FFFFF) := by
  simp [outOfDomain, BitVec.lt_def, Bool.decide_or, Bool.or_assoc]

/-- The sign value as a packed pattern (R131). -/
theorem signDecode_eq (s : Word) : signDecode s = packFields (decide (s.toNat % 2 = 1)) 127 0 := by
  simp only [signDecode, BitVec.getLsbD, Nat.testBit_zero]
  by_cases h : s.toNat % 2 = 1 <;> simp [h] <;> rfl

/-- The exponent value as a packed pattern (R132). -/
theorem expDecode_eq (e : Word) : expDecode e =
    if e.toNat = 0 then packFields false 0 0x400000
    else if e.toNat ≤ 254 then packFields false e.toNat 0 else packFields false 255 0 := by
  unfold expDecode rebias Config.bias
  split_ifs with h0 h1
  · rw [h0]; decide
  · rw [round32_normal (p := 0) false (by norm_num) (by norm_num) (by norm_num) (by push_cast; omega)
      (by push_cast; omega)]
    congr 1; push_cast; omega
  · rw [round32_overflow (p := 0) false (by norm_num) (by push_cast; omega)]

/-- The pattern of a fraction bit's weight (R134). -/
theorem weight_eq (i : Nat) : weight i = packFields false (i + 104) 0 := by
  simp [weight, packFields, signBit]

/-- Adding one bit's weight to an exact partial sum is exact (R135). -/
theorem addNonneg_weight {g i : Nat} (hg : g < 2 ^ 23) (hi : i ≤ 22) :
    addNonneg (round32 false ⟨g, -23⟩) (weight i) = round32 false ⟨g + 2 ^ i, -23⟩ := by
  unfold addNonneg
  apply round32_congr
  rw [Mag.value_add, (value_magnitude_round32 false (by omega) (by omega) (by omega)).1, weight_eq,
    magnitude_packFields false (by omega) (by omega), if_neg (by omega), Mag.value_eq, Mag.value_eq]
  push_cast
  rw [add_mul]
  congr 1
  rw [show (i : ℤ) + 104 - 150 = (i : ℤ) + -23 - 23 by ring, zpow_sub₀ (two_ne_zero' ℚ), zpow_add₀ (two_ne_zero' ℚ),
    zpow_natCast]
  norm_num
  ring

/-- The sum of the weights 2^i of the bits of `f` at the places in a list. -/
def bitSum (f : Word) (l : List Nat) : Nat := (l.map fun i => if f.getLsbD i then 2 ^ i else 0).sum

/-- Accumulating over any list of places adds their bits' weights exactly, while the sum stays below 1 (R135). -/
theorem foldl_accumulate (f : Word) (l : List Nat) (g : Nat) (hl : ∀ i ∈ l, i ≤ 22) (hs : g + bitSum f l < 2 ^ 23) :
    l.foldl (accumulate f) (round32 false ⟨g, -23⟩) = round32 false ⟨g + bitSum f l, -23⟩ := by
  induction l generalizing g with
  | nil => simp [bitSum]
  | cons i l ih =>
    simp only [bitSum, List.map_cons, List.sum_cons] at hs ⊢
    simp only [List.foldl_cons, accumulate]
    split
    case isTrue h =>
      rw [if_pos h] at hs
      rw [addNonneg_weight (by have := Nat.two_pow_pos i; omega) (hl i (by simp)),
        ih _ (fun j hj => hl j (by simp [hj])) (by unfold bitSum; omega)]
      simp only [bitSum, Nat.add_assoc]
    case isFalse h =>
      rw [if_neg h] at hs
      rw [ih _ (fun j hj => hl j (by simp [hj])) (by unfold bitSum; omega)]
      simp [bitSum]

/-- The bits at the places 0..n−1 sum to the value mod 2^n. -/
theorem bitSum_range (f : Word) (n : Nat) : bitSum f (List.range n) = f.toNat % 2 ^ n := by
  induction n with
  | zero => simp [bitSum, Nat.mod_one]
  | succ n ih =>
    rw [Nat.mod_pow_succ, ← ih]
    simp only [bitSum, List.range_succ, List.map_append, List.sum_append, BitVec.getLsbD,
      Nat.testBit_eq_decide_div_mod_eq]
    rcases Nat.mod_two_eq_zero_or_one (f.toNat / 2 ^ n) with h | h <;> simp [h]

/-- The accumulator as one rounded number (R134, R135). -/
theorem mantAccumulator_eq (f : Word) {n : Nat} (h : n ≤ 23) :
    mantAccumulator f n = round32 false ⟨f.toNat % 2 ^ n, -23⟩ := by
  have hlt : f.toNat % 2 ^ n < 2 ^ 23 :=
    lt_of_lt_of_le (Nat.mod_lt _ (Nat.two_pow_pos n)) (Nat.pow_le_pow_right (by omega) h)
  have := foldl_accumulate f (List.range n) 0 (fun i hi => by have := List.mem_range.1 hi; omega)
    (by rw [bitSum_range]; omega)
  rw [bitSum_range, Nat.zero_add] at this
  exact this

/-- The mantissa value as one rounded number (R134, R135). -/
theorem mantDecode_eq (f : Word) : mantDecode f = round32 false ⟨f.toNat % 2 ^ 23, -23⟩ :=
  mantAccumulator_eq f (le_refl 23)

/-- The mantissa value is a finite pattern with a plus sign (R136). -/
theorem mantDecode_finite (f : Word) : (expField (mantDecode f)).toNat ≠ 255 ∧ isNeg (mantDecode f) = false := by
  rw [mantDecode_eq]
  exact ⟨(value_magnitude_round32 false (by omega) (by omega) (by omega)).2, isNeg_round32 _ _⟩

/-- The mantissa value is zero exactly for a zero fraction (R136). -/
theorem mantDecode_zero_iff (f : Word) : classify (mantDecode f) = .zero ↔ f.toNat % 2 ^ 23 = 0 := by
  have hv := value_magnitude_round32 false (m := f.toNat % 2 ^ 23) (e := -23) (by omega) (by omega) (by omega)
  rw [← mantDecode_eq] at hv
  rw [classify_eq_zero]
  constructor
  · rintro ⟨h1, h2⟩
    have := hv.1
    rw [magnitude_zero h1 h2, Mag.value_eq] at this
    simp at this
    exact_mod_cast this
  · intro h
    rw [mantDecode_eq, h]; decide

/-- A non-zero fraction shifted so that its highest bit falls out of the 23 bits kept (R136, R173, R176). -/
theorem fraction_shift (g : Word) {p : Nat} (hg : g.toNat < 2 ^ 23) (h1 : 2 ^ p ≤ g.toNat) (h2 : g.toNat < 2 ^ (p + 1)) :
    ((g <<< (23 - p)) &&& 0x7FFFFF#32) = BitVec.ofNat 32 (g.toNat * 2 ^ (23 - p) - 2 ^ 23) := by
  have hp : p ≤ 22 := by
    by_contra hc
    have := Nat.pow_le_pow_right (n := 2) (by omega) (show 23 ≤ p by omega)
    omega
  have hlo : 2 ^ 23 ≤ g.toNat * 2 ^ (23 - p) := by
    calc 2 ^ 23 = 2 ^ p * 2 ^ (23 - p) := by rw [← Nat.pow_add]; congr 1; omega
      _ ≤ _ := Nat.mul_le_mul_right _ h1
  have hhi : g.toNat * 2 ^ (23 - p) < 2 ^ 24 := by
    calc g.toNat * 2 ^ (23 - p) < 2 ^ (p + 1) * 2 ^ (23 - p) := Nat.mul_lt_mul_of_pos_right h2 (Nat.two_pow_pos _)
      _ = 2 ^ 24 := by rw [← Nat.pow_add]; congr 1; omega
  apply BitVec.eq_of_toNat_eq
  change (fracField _).toNat = _
  rw [fracField_toNat, BitVec.toNat_shiftLeft, Nat.shiftLeft_eq]
  simp only [BitVec.toNat_ofNat]
  omega

end Sys2Proof.Machine
end

