-- ==== Sys2Proof/Laws/HostProgram.lean ====
section
/-! SUPPORT. What one line of a host program does, and how a run is put together (spec R98 to R101). -/

namespace Sys2Proof.Machine

/-- An access issued while the machine serves accesses is served by the next step, and what was to arrive stays (R98). -/
theorem step_issue {s : State} (a : Access) (hp : s.phase = .serving) : step (s.issue a) = serve a s :=
  step_access (s := s.issue a) (a := a) (rest := s.port) hp rfl

/-- A word write of a value that has a word (R98). -/
theorem performBasic_wr {h : HostState} {r : Reg} {v : Value} {w : Word} (hp : h.machine.phase = .serving)
    (hv : v.word h.names = some w) :
    performBasic (wrReg r v) h = match busWrite r.off 4 w h.machine with
      | .next t => .next { machine := t, names := h.names }
      | .fault f => .fault f
      | .refused x => .refused x := by
  simp only [performBasic, wrReg, Basic.access, hv, Option.map_some, Target.off, Size.bytes, step_issue _ hp, serve,
    Basic.namesAfter] <;> rfl

/-- A word read of a register binds its name to what the register holds (R98). -/
theorem performBasic_rd {h : HostState} {r : Reg} {n : Name} (hp : h.machine.phase = .serving) :
    performBasic (rdReg r n) h =
      .next
        { machine := h.machine.answer (.okRead (h.machine.readReg r))
          names := (n, h.machine.readReg r) :: unbindName h.names n } := by
  simp [performBasic, rdReg, Basic.access, Target.off, Size.bytes, step_issue _ hp, serve, Basic.namesAfter, bindRead]

/-- A write of an operand register in a program (R65, R98). -/
theorem performBasic_operand {h : HostState} {v : Value} {w : Word} (hp : h.machine.phase = .serving)
    (hv : v.word h.names = some w) :
    performBasic (wrReg .opa v) h = .next ⟨(h.machine.setOpa w).answer .okWrite, h.names⟩ ∧
    performBasic (wrReg .opb v) h = .next ⟨(h.machine.setOpb w).answer .okWrite, h.names⟩ ∧
    performBasic (wrReg .opc v) h = .next ⟨(h.machine.setOpc w).answer .okWrite, h.names⟩ := by
  refine ⟨?_, ?_, ?_⟩ <;> rw [performBasic_wr hp hv, busWrite_reg]

/-- A command in a program (R92, R98). -/
theorem performBasic_command {h : HostState} {i : Instr} {t : State} (hp : h.machine.phase = .serving)
    (ht : exec i h.machine = .next t) :
    performBasic (wrReg .ctrl (.cmd i)) h = .next ⟨t.answer .okWrite, h.names⟩ := by
  have hc : command (encode i) h.machine = exec i h.machine := by cases i <;> rfl
  rw [performBasic_wr (w := encode i) hp rfl, busWrite_reg]
  simp only [hc, ht, answering]

/-- A line before which no event of others comes. -/
@[simp] theorem performTurn_zero (b : Basic) (h : HostState) : performTurn 0 b h = performBasic b h := rfl

/-- No lines, no change. -/
@[simp] theorem performBasics_nil (turns : List Nat) (h : HostState) : performBasics turns [] h = .next h := by
  cases turns <;> rfl

/-- A first line and the lines after it (R98). -/
theorem performBasics_cons (turns : List Nat) (b : Basic) (bs : List Basic) (h : HostState) :
    performBasics turns (b :: bs) h = match performTurn (turns.headD 0) b h with
      | .next h' => performBasics turns.tail bs h'
      | .fault f => .fault f
      | .refused r => .refused r := by
  cases turns <;> rfl

/-- Two runs of lines, one after the other (R98). -/
theorem performBasics_append (turns : List Nat) (bs cs : List Basic) (h : HostState) :
    performBasics turns (bs ++ cs) h = match performBasics turns bs h with
      | .next h' => performBasics (turns.drop bs.length) cs h'
      | .fault f => .fault f
      | .refused r => .refused r := by
  induction bs generalizing turns h with
  | nil => simp
  | cons b bs ih =>
    simp only [List.cons_append, performBasics_cons, List.length_cons, ← List.drop_tail]
    cases performTurn (turns.headD 0) b h with
    | next h' => exact ih turns.tail h'
    | fault f => rfl
    | refused r => rfl

/-- Without turns, a run of lines is the lines one after the other (R98). -/
theorem performBasics_append_nil (bs cs : List Basic) (h : HostState) :
    performBasics [] (bs ++ cs) h = match performBasics [] bs h with
      | .next h' => performBasics [] cs h'
      | .fault f => .fault f
      | .refused r => .refused r := by
  rw [performBasics_append, List.drop_nil]

/-- Accesses of others that come before a line are served, each leaving the events behind it (R73). -/
theorem othersFirst_next (k : Nat) {s : State} (hp : s.phase = .serving) (he : ∀ e ∈ s.port.take k, servedAccess e) :
    ∃ t, othersFirst k s = .next t ∧ t.phase = .serving ∧ t.port = s.port.drop k ∧
      t.answers.length = s.answers.length + min k s.port.length := by
  induction k generalizing s with
  | zero => exact ⟨s, rfl, hp, rfl, by simp⟩
  | succ k ih =>
    cases hport : s.port with
    | nil =>
      obtain ⟨t, h1, h2, h3, h4⟩ := ih hp (by simp [hport])
      exact ⟨t, by simp only [othersFirst, step_idle hport, h1], h2, by simpa [hport] using h3, by simpa [hport] using h4⟩
    | cons e rest =>
      obtain ⟨u, r, g1, g2, g3, g4⟩ := handle_servedAccess (s := { s with port := rest }) hp (he e (by simp [hport]))
      obtain ⟨t, h1, h2, h3, h4⟩ := ih g2 (fun e' he' => he e' (by rw [g3] at he'; simp [hport, he']))
      refine ⟨t, by simp only [othersFirst, step_event hport, g1, h1], h2, by rw [h3, g3]; rfl, ?_⟩
      rw [h4, g4, g3]
      simp only [List.length_cons]
      omega

/-- The names a run has bound. -/
def boundNames (l : List (Name × Word)) : List Name := l.map (·.1)

/-- A name has a value exactly when it is bound. -/
theorem lookupName_isSome_iff (l : List (Name × Word)) (n : Name) : (∃ w, lookupName l n = some w) ↔ n ∈ boundNames l := by
  induction l with
  | nil => simp [lookupName, boundNames]
  | cons p l ih =>
    obtain ⟨m, w⟩ := p
    simp only [lookupName, boundNames, List.map_cons, List.mem_cons]
    split
    · simp_all
    · rw [ih]
      exact ⟨.inr, fun h => h.resolve_left (Ne.symm ‹_›)⟩

/-- Unbinding a name leaves the others bound (R98). -/
theorem mem_boundNames_unbindName (l : List (Name × Word)) (n m : Name) :
    m ∈ boundNames (unbindName l n) ↔ m ∈ boundNames l ∧ m ≠ n := by
  simp only [boundNames, unbindName, List.mem_map, List.mem_filter]
  constructor
  · rintro ⟨p, ⟨h1, h2⟩, rfl⟩; exact ⟨⟨p, h1, rfl⟩, by simpa using h2⟩
  · rintro ⟨⟨p, h1, rfl⟩, h2⟩; exact ⟨p, ⟨h1, by simpa using h2⟩, rfl⟩

/-- Unbinding a name leaves the values of the others (R98). -/
theorem lookupName_unbindName (l : List (Name × Word)) {n m : Name} (hnm : n ≠ m) :
    lookupName (unbindName l m) n = lookupName l n := by
  induction l with
  | nil => rfl
  | cons p l ih =>
    obtain ⟨q, w⟩ := p
    simp only [unbindName] at ih
    by_cases h : q = m
    · subst h; simp [unbindName, lookupName, hnm.symm, ih]
    · simp [unbindName, lookupName, h, ih]

/-- A value can be used exactly when it has a word (R98). -/
theorem value_usable_iff (v : Value) (l : List (Name × Word)) (ns : List Name) (hn : ∀ n, n ∈ ns ↔ n ∈ boundNames l) :
    v.usable ns = true ↔ ∃ w, v.word l = some w := by
  cases v with
  | lit w => simp [Value.usable, Value.word]
  | cmd i => simp [Value.usable, Value.word]
  | name n => simp only [Value.usable, Value.word, lookupName_isSome_iff, ← hn]; simp

/-- An access is an aligned word access unless R63 names it. -/
theorem wordAligned_iff (o : Offset) (n : Nat) : wordAligned o n = true ↔ ¬ (n ≠ 4 ∨ o.toNat % 4 ≠ 0) := by
  simp [wordAligned, Config.registerBytes]

/-- Everything one basic line can do from a state that serves accesses (R98). -/
theorem performBasic_spec (b : Basic) (h : HostState) (ns : List Name) (hp : h.machine.phase = .serving)
    (hn : ∀ n, n ∈ ns ↔ n ∈ boundNames h.names) :
    (b.usable ns = true → ∃ h', performBasic b h = .next h' ∧ h'.machine.phase = .serving ∧
      h'.machine.port = h.machine.port ∧ h'.machine.answers.length = h.machine.answers.length + 1 ∧
      ∀ n, n ∈ b.boundAfter ns ↔ n ∈ boundNames h'.names) ∧
    (b.usable ns = false → performBasic b h = .fault .unboundName) := by
  cases b with
  | wr size target v =>
    simp only [Basic.usable]
    constructor
    · intro hu
      obtain ⟨w, hw⟩ := (value_usable_iff v h.names ns hn).1 hu
      obtain ⟨t, r, h1, h2, h3, h4, h5⟩ := serve_next ⟨target.off, .write size.bytes w⟩ h.machine
      refine ⟨⟨t, h.names⟩, ?_, h2.trans hp, h3, by simp [h5], hn⟩
      simp only [performBasic, Basic.access, hw, Option.map_some, step_issue _ hp, h1, Basic.namesAfter]
    · intro hu
      have : v.word h.names = none := by
        by_contra hc
        obtain ⟨w, hw⟩ := Option.ne_none_iff_exists'.1 hc
        rw [(value_usable_iff v h.names ns hn).2 ⟨w, hw⟩] at hu; simp at hu
      simp [performBasic, Basic.access, this]
  | rd size target n =>
    refine ⟨fun _ => ?_, by simp [Basic.usable]⟩
    refine ⟨⟨h.machine.answer (busRead target.off size.bytes h.machine),
      (Basic.rd size target n).namesAfter h.names (h.machine.answer (busRead target.off size.bytes h.machine))⟩,
      by simp only [performBasic, Basic.access, step_issue _ hp, serve], hp, rfl, by simp, ?_⟩
    intro m
    cases n with
    | none => exact hn m
    | some n =>
      simp only [Basic.boundAfter, Basic.namesAfter, State.answer_answers, List.head?_cons]
      by_cases ha : wordAligned target.off size.bytes = true
      · rw [if_pos ha]
        have h2 := mt (selectReg_eq_none_iff target.off size.bytes).1 ((wordAligned_iff _ _).1 ha)
        obtain ⟨r, hr⟩ := Option.ne_none_iff_exists'.1 h2
        simp only [busRead, hr, bindRead]
        show m ∈ n :: ns ↔ m ∈ n :: boundNames (unbindName h.names n)
        simp only [List.mem_cons, mem_boundNames_unbindName, hn]; tauto
      · rw [if_neg ha]
        rw [wordAligned_iff, not_not] at ha
        simp only [busRead_err ha, bindRead, mem_boundNames_unbindName, ← hn]
        simp

end Sys2Proof.Machine
end

