-- ==== Sys2Proof/Laws/PerInstr.lean ====
section
/-! SUPPORT. Statements for all commands, one lemma per command. Family LegalWord: a command is well formed and its word is
a legal CTRL word by its fields (spec R91, R93, R96). -/

namespace Sys2Proof.Laws.LegalWord

/-- The command is well formed, its word has RSVD = 0 and OP other than 3. -/
def Statement (i : Instr) : Prop :=
  i.wellFormed = true ∧ rsvdField (encode i) = 0#30 ∧ opField (encode i) ≠ 3#2 ∧
    commandWordWellFormed (encode i) = true

/-- EXTRACT. -/
theorem extract : Statement .extract := by unfold Statement; decide

/-- DECODE. -/
theorem decode : Statement .decode := by unfold Statement; decide

/-- RECOMPOSE. -/
theorem recompose : Statement .recompose := by unfold Statement; decide

end Sys2Proof.Laws.LegalWord
end

