-- ==== Sys2Proof/Laws/Recompose.lean ====
section
/-! SUPPORT. What FMul32 does with finite operands and with a factor of ±1, and what RECOMPOSE gives from decoded operands, as
one rounded number (spec R171 to R173). -/

namespace Sys2Proof.Machine

/-- The product of finite patterns is rounded once, zeros among them too (R171). -/
theorem fmul32_finite {x y : Word} (hx : (expField x).toNat ≠ 255) (hy : (expField y).toNat ≠ 255) :
    fmul32 x y = round32 (isNeg x ^^ isNeg y) ((magnitude x).mul (magnitude y)) := by
  unfold fmul32
  simp only [classify_eq_nan, classify_eq_infinity, hx, hy, false_and, or_self, if_false, and_false]
  split
  case isTrue h =>
    rw [signBit_eq_packFields]
    rcases h with h | h <;> rw [classify_eq_zero] at h <;> simp [magnitude_zero h.1 h.2, Mag.mul, round32_zero]
  case isFalse => rfl

/-- ±1 times a pattern that is no NaN keeps its exponent and fraction (R171). -/
theorem fmul32_one (b : Bool) {y : Word} (h : classify y ≠ .nan) :
    fmul32 (packFields b 127 0) y = packFields (b ^^ isNeg y) (expField y).toNat (fracField y).toNat := by
  have h1 : (expField (packFields b 127 0)).toNat = 127 := expField_packFields b (by omega) (by omega)
  have h2 : isNeg (packFields b 127 0) = b := isNeg_packFields b (by omega) (by omega)
  by_cases hy : (expField y).toNat = 255
  · have hf : (fracField y).toNat = 0 := by
      by_contra hc; exact h ((classify_eq_nan y).2 ⟨hy, hc⟩)
    have hi : classify y = .infinity := (classify_eq_infinity y).2 ⟨hy, hf⟩
    have hn : classify (packFields b 127 0) = .normal := (classify_eq_normal _).2 (by omega)
    simp [fmul32, hi, hn, h2, signBit_or_posInf, hy, hf]
  · rw [fmul32_finite (by omega) hy, h2, ← round32_magnitude _ y hy]
    apply round32_congr
    rw [Mag.value_mul, magnitude_packFields b (by omega) (by omega), if_neg (by omega), Mag.value_eq]
    norm_num

/-- RECOMPOSE of decoded fields with an exponent up to 254, as one rounded number (R173). -/
theorem product3_decoded_finite (s e f : Word) (h : e.toNat ≤ 254) :
    product3 (signDecode s) (expDecode e) (mantDecode f) =
      round32 (decide (s.toNat % 2 = 1)) ⟨f.toNat % 2 ^ 23, (e.toNat : ℤ) - 150⟩ := by
  unfold product3
  have hb : classify (expDecode e) ≠ .nan := round32_not_nan _ _
  have hbn : isNeg (expDecode e) = false := isNeg_round32 _ _
  obtain ⟨hc, hcn⟩ := mantDecode_finite f
  have hce : (expField (expDecode e)).toNat ≠ 255 ∧ (magnitude (expDecode e)).value = 2 ^ ((e.toNat : ℤ) - 127) := by
    rw [expDecode_eq]
    split_ifs with h0
    · rw [expField_packFields _ (by omega) (by omega), magnitude_packFields _ (by omega) (by omega), h0, Mag.value_eq]
      norm_num
    · rw [expField_packFields _ (by omega) (by omega), magnitude_packFields _ (by omega) (by omega), if_neg h0,
        Mag.value_eq]
      refine ⟨by omega, ?_⟩
      simp only
      rw [show (e.toNat : ℤ) - 127 = 23 + (e.toNat - 150) by ring, zpow_add₀ (two_ne_zero' ℚ)]
      norm_num
  rw [signDecode_eq, fmul32_one _ hb]
  have hE := expField_lt (expDecode e)
  have hF := fracField_lt (expDecode e)
  rw [fmul32_finite (by rw [expField_packFields _ hE hF]; exact hce.1) hc, isNeg_packFields _ hE hF, hbn, hcn]
  simp only [Bool.xor_false]
  apply round32_congr
  have : magnitude (packFields (decide (s.toNat % 2 = 1)) (expField (expDecode e)).toNat (fracField (expDecode e)).toNat)
      = magnitude (expDecode e) := by
    rw [magnitude_packFields _ hE hF, magnitude_eq]
  rw [Mag.value_mul, this, hce.2, mantDecode_eq, (value_magnitude_round32 false (by omega) (by omega) (by omega)).1,
    Mag.value_eq]
  simp only
  rw [show (e.toNat : ℤ) - 150 = (e.toNat - 127) + -23 by ring, zpow_add₀ (two_ne_zero' ℚ)]
  ring

/-- RECOMPOSE of decoded fields with an exponent above 254 (R173). -/
theorem product3_decoded_inf (s e f : Word) (h : 255 ≤ e.toNat) :
    product3 (signDecode s) (expDecode e) (mantDecode f) =
      if f.toNat % 2 ^ 23 = 0 then canonNaN else packFields (decide (s.toNat % 2 = 1)) 255 0 := by
  unfold product3
  have he : expDecode e = packFields false 255 0 := by rw [expDecode_eq, if_neg (by omega), if_neg (by omega)]
  have hn : classify (packFields false 255 0) ≠ .nan := by decide
  obtain ⟨hc, hcn⟩ := mantDecode_finite f
  have h1 := mantDecode_zero_iff f
  have h2 : classify (mantDecode f) ≠ .nan := by rw [ne_eq, classify_eq_nan]; omega
  rw [he, signDecode_eq, fmul32_one _ hn]
  have e1 : (expField (packFields false 255 0)).toNat = 255 := by decide
  have e2 : (fracField (packFields false 255 0)).toNat = 0 := by decide
  rw [e1, e2]
  generalize decide (s.toNat % 2 = 1) = b
  have ci : classify (packFields (b ^^ isNeg (packFields false 255 0)) 255 0) = .infinity := by
    rw [classify_eq_infinity, expField_packFields _ (by omega) (by omega), fracField_packFields _ (by omega) (by omega)]
    omega
  have en : isNeg (packFields (b ^^ isNeg (packFields false 255 0)) 255 0) = b := by
    rw [isNeg_packFields _ (by omega) (by omega), isNeg_packFields _ (by omega) (by omega)]; simp
  by_cases hz : f.toNat % 2 ^ 23 = 0
  · rw [if_pos hz]
    simp [fmul32, ci, h1.2 hz]
  · rw [if_neg hz]
    simp [fmul32, ci, mt h1.1 hz, h2, en, hcn, signBit_or_posInf]

end Sys2Proof.Machine
end

