-- ==== Sys2Proof/Machine/Assembler.lean ====
section
/-! DEFINITION. The program notation of DCF32 as text (spec R98, R99): from characters to lines. What the spec leaves open of
the text (blanks, blank lines, a comment after a line, the spelling of a name) is assumption 10. -/

namespace Sys2Proof.Machine

/-- Put a token that has been read in front of those to come. -/
def flushToken (cur : List Char) (rest : List String) : List String :=
  match cur with
  | [] => rest
  | c :: cs => String.ofList (c :: cs) :: rest

/-- The tokens of a line: blanks part them, a comma and an arrow stand alone, and "#" ends the line. -/
def tokensFrom : List Char → List Char → List String
  | [], cur => flushToken cur []
  | '#' :: _, cur => flushToken cur []
  | ' ' :: cs, cur => flushToken cur (tokensFrom cs [])
  | '\t' :: cs, cur => flushToken cur (tokensFrom cs [])
  | ',' :: cs, cur => flushToken cur ("," :: tokensFrom cs [])
  | '-' :: '>' :: cs, cur => flushToken cur ("->" :: tokensFrom cs [])
  | c :: cs, cur => tokensFrom cs (cur ++ [c])

/-- The digits of R98's numbers, each at the place that is its value. -/
def digitRow : List Char := "0123456789abcdef".toList

/-- The place of a character in a row of characters. -/
def placeIn (c : Char) : List Char → Option Nat
  | [] => none
  | d :: ds => if c = d then some 0 else (placeIn c ds).map (· + 1)

/-- The value of a digit in base 10 or 16 (R98), a letter of either case (assumption 10). -/
def digitValue (base : Nat) (c : Char) : Option Nat := placeIn c.toLower (digitRow.take base)

/-- The number that digits write in a base, the one of highest weight first. -/
def numeral (base : Nat) (cs : List Char) : Option Nat :=
  (cs.mapM (digitValue base)).map fun ds => ds.foldl (base * · + ·) 0

/-- A number below 2^32 (R98): "0x" and one to eight hexadecimal digits, or decimal digits. -/
def numberOf : List Char → Option Nat
  | [] => none
  | '0' :: 'x' :: ds => if 1 ≤ ds.length ∧ ds.length ≤ 8 then numeral 16 ds else none
  | ds => (numeral 10 ds).filter (· < 2 ^ 32)

/-- A register by its name (R30, R98). -/
def regNamed (s : String) : Option Reg :=
  match s with
  | "OPA" => some .opa
  | "OPB" => some .opb
  | "OPC" => some .opc
  | "CTRL" => some .ctrl
  | "STATUS" => some .status
  | "RES0" => some .res0
  | "RES1" => some .res1
  | "RES2" => some .res2
  | _ => none

/-- A command word by its mnemonic (R93, R98). -/
def commandNamed (s : String) : Option Instr :=
  match s with
  | "EXTRACT" => some .extract
  | "DECODE" => some .decode
  | "RECOMPOSE" => some .recompose
  | _ => none

/-- A name's spelling: a letter or "_" and then letters, digits and "_", and no register's or command's name. -/
def nameOf (s : String) : Option Name :=
  match s.toList with
  | [] => none
  | c :: cs =>
    if (c.isAlpha || c == '_') && cs.all (fun d => d.isAlphanum || d == '_') && (regNamed s).isNone
        && (commandNamed s).isNone then some (.user s)
    else none

/-- A value (R98). -/
def valueOf (s : String) : Option Value :=
  match numberOf s.toList with
  | some n => some (.lit (BitVec.ofNat 32 n))
  | none =>
    match commandNamed s with
    | some i => some (.cmd i)
    | none => (nameOf s).map .name

/-- Where an access goes: a register's name, or "@" and an offset 0..31 (R98). -/
def targetOf (s : String) : Option Target :=
  match s.toList with
  | '@' :: ds =>
    match numberOf ds with
    | some n => if n < Config.windowBytes then some (.raw (BitVec.ofNat 5 n)) else none
    | none => none
  | _ => (regNamed s).map .reg

/-- The size of a write by its mnemonic (R98). -/
def writeSize (s : String) : Option Size :=
  match s with
  | "WR" => some .word
  | "WR.w" => some .word
  | "WR.h" => some .half
  | "WR.b" => some .byte
  | _ => none

/-- The size of a read by its mnemonic (R98). -/
def readSize (s : String) : Option Size :=
  match s with
  | "RD" => some .word
  | "RD.w" => some .word
  | "RD.h" => some .half
  | "RD.b" => some .byte
  | _ => none

/-- A pseudo-instruction from its tokens (R99). -/
def pseudoOf (toks : List String) : Option Pseudo :=
  match toks with
  | ["extract", x] => (valueOf x).map .extract
  | ["decode", s, ",", e, ",", f] => do return .decode (← valueOf s) (← valueOf e) (← valueOf f)
  | ["recompose", a, ",", b, ",", c] => do return .recompose (← valueOf a) (← valueOf b) (← valueOf c)
  | ["results", "->", n0, ",", n1, ",", n2] => do return .results (← nameOf n0) (← nameOf n1) (← nameOf n2)
  | ["status", "->", n] => (nameOf n).map .status
  | ["deconstruct", x, "->", r] => do return .deconstruct (← valueOf x) (← nameOf r)
  | _ => none

/-- A basic line from its tokens (R98). -/
def basicOf (toks : List String) : Option Basic :=
  match toks with
  | [op, tgt, ",", v] => do return .wr (← writeSize op) (← targetOf tgt) (← valueOf v)
  | [op, tgt] => do return .rd (← readSize op) (← targetOf tgt) none
  | [op, tgt, "->", n] => do return .rd (← readSize op) (← targetOf tgt) (some (← nameOf n))
  | _ => none

/-- A line from its characters (R98): nothing for a blank line, and none for text that is no line. -/
def lineOf (cs : List Char) : Option (List Line) :=
  match cs.dropWhile Char.isWhitespace with
  | [] => some []
  | '#' :: text => some [.comment (String.ofList text)]
  | c :: rest =>
    let toks := tokensFrom (c :: rest) []
    match basicOf toks with
    | some b => some [.access b]
    | none => (pseudoOf toks).map fun p => [.pseudo p]

/-- The lines of a text, one after the other. -/
def splitLines : List Char → List Char → List (List Char)
  | [], cur => [cur]
  | '\n' :: cs, cur => cur :: splitLines cs []
  | c :: cs, cur => splitLines cs (cur ++ [c])

/-- The lines a list of line texts stands for, if each is a line. -/
def linesOf : List (List Char) → Option (List Line)
  | [] => some []
  | cs :: rest =>
    match lineOf cs, linesOf rest with
    | some l, some ls => some (l ++ ls)
    | _, _ => none

/-- A host program from its text (R98, R99). -/
def assemble (text : String) : Option (List Line) := linesOf (splitLines text.toList [])

end Sys2Proof.Machine
end

