-- ==== Sys2Proof/Tests/Slice0.lean ====
section
/-! SUPPORT. Tests: what the well-formedness checks refuse, the command words of the spec's format, one-step vectors of
spec/95_test_vectors.md, and for every statement with hypotheses a state and operands that meet them. -/

namespace Sys2Proof.Tests

open Sys2Proof Sys2Proof.Machine

/-- The reset state with events to come. -/
def arriving (es : List Event) : State := { State.reset with port := es }

/-- The reset state with operands and events to come. -/
def holding (a b c : Word) (es : List Event) : State := { State.reset with opa := a, opb := b, opc := c, port := es }

/-- A write of `n` bytes at an offset. -/
def wr (off : Offset) (n : Nat) (v : Word) : Event := .access { off := off, req := .write n v }

/-- A read of `n` bytes at an offset. -/
def rd (off : Offset) (n : Nat) : Event := .access { off := off, req := .read n }

/-- RES0, RES1, RES2 and STATUS after one step. -/
def results (s : State) : Option (List Word) :=
  match step s with
  | .next t => some [t.res0, t.res1, t.res2, t.readReg .status]
  | .fault _ => none
  | .refused _ => none

/-- The response given last and OPA after one step. -/
def answerAndOpa (s : State) : Option (Response × Word) :=
  match step s with
  | .next t => t.answers.head?.map fun r => (r, t.opa)
  | .fault _ => none
  | .refused _ => none

/-! ### Well-formedness refuses -/

theorem test_wf_command_op_3 : commandWordWellFormed 0x00000003#32 = false := by decide
theorem test_wf_command_rsvd : commandWordWellFormed 0x00000004#32 = false := by decide
theorem test_wf_command_legal : (List.map commandWordWellFormed [0#32, 1#32, 2#32]) = [true, true, true] := by decide
theorem test_wf_instr : [Instr.extract, .decode, .recompose].all Instr.wellFormed = true := by decide
theorem test_wf_access_size : Access.wellFormed { off := 0x14#5, req := .read 2 } = false := by decide
theorem test_wf_access_alignment : Access.wellFormed { off := 0x01#5, req := .write 4 0#32 } = false := by decide
theorem test_wf_access_word : Access.wellFormed { off := 0x1C#5, req := .read 4 } = true := by decide
/-- A name that no read has bound (R98). -/
theorem test_wf_program_unbound :
    programWellFormed [.access (.wr .word (.reg .opa) (.name (.user "x")))] = false := by decide
/-- A name whose read is answered ERR (R98). -/
theorem test_wf_program_err_read :
    programWellFormed [.access (.rd .half (.reg .res0) (some (.user "x"))),
      .access (.wr .word (.reg .opa) (.name (.user "x")))] = false := by decide
theorem test_wf_program_bound :
    programWellFormed [.pseudo (.status (.user "x")), .access (.wr .word (.reg .opa) (.name (.user "x")))] = true := by
  decide
theorem test_wf_platform : platformWellFormed [0, 64] = true := by decide
theorem test_wf_platform_base : platformWellFormed [0, 48] = false := by decide
theorem test_wf_platform_overlap : platformWellFormed [64, 64] = false := by decide

/-! ### Command words (spec/30_encoding.md: bits 31:2 RSVD, bits 1:0 OP) -/

theorem test_decode_extract :
    Sys2Proof.decode 0b00000000000000000000000000000000#32 = .ok .extract := by decide
theorem test_decode_decode :
    Sys2Proof.decode 0b00000000000000000000000000000001#32 = .ok .decode := by decide
theorem test_decode_recompose :
    Sys2Proof.decode 0b00000000000000000000000000000010#32 = .ok .recompose := by decide
theorem test_decode_op_3 : Sys2Proof.decode 0b00000000000000000000000000000011#32 = .error .illegalOp := by decide
theorem test_decode_bit_31 :
    Sys2Proof.decode 0b10000000000000000000000000000010#32 = .error (.reservedBits 0x20000000#30) := by decide
theorem test_decode_table_rows :
    [decodeTableWord 32 0, decodeTableWord 32 1, decodeTableWord 32 2, decodeTableWord 32 3] =
      [some .extract, some .decode, some .recompose, none] := by decide
theorem test_encode : [Instr.extract, .decode, .recompose].map encode = [0x0#32, 0x1#32, 0x2#32] := by decide

/-! ### One step each (tables L2.1 to L2.7 of spec/95_test_vectors.md) -/

theorem test_extract_negative : results (holding 0xBFC00000#32 0#32 0#32 [.access (ctrlWrite 0#32)]) =
    some [0x00000001#32, 0x0000007F#32, 0x00400000#32, 0x00000001#32] := by decide
theorem test_extract_all_ones : results (holding 0xFFFFFFFF#32 0#32 0#32 [.access (ctrlWrite 0#32)]) =
    some [0x00000001#32, 0x000000FF#32, 0x007FFFFF#32, 0x00000001#32] := by decide
set_option maxRecDepth 8000 in
theorem test_decode_alternating : results (holding 0#32 0x7F#32 0x00555555#32 [.access (ctrlWrite 1#32)]) =
    some [0x3F800000#32, 0x3F800000#32, 0x3F2AAAAA#32, 0x00000009#32] := by decide
set_option maxRecDepth 8000 in
/-- P3, line 11: every operand out of its domain. -/
theorem test_decode_out_of_domain : results (holding 5#32 0x100#32 0x00FFFFFF#32 [.access (ctrlWrite 1#32)]) =
    some [0xBF800000#32, 0x7F800000#32, 0x3F7FFFFE#32, 0x0000000D#32] := by decide
theorem test_recompose_rounds_twice :
    results (holding 0x4229AE14#32 0x4229AE14#32 0x4229AE14#32 [.access (ctrlWrite 2#32)]) =
      some [0x47951677#32, 0#32, 0#32, 0x00000011#32] := by decide
theorem test_recompose_subnormal_tie :
    results (holding 0x3F800000#32 0x00400000#32 0x34C00000#32 [.access (ctrlWrite 2#32)]) =
      some [0x00000002#32, 0#32, 0#32, 0x00000011#32] := by decide
theorem test_illegal_rsvd : results (holding 7#32 8#32 9#32 [.access (ctrlWrite 0x80000002#32)]) =
    some [0#32, 0#32, 0#32, 0x00000012#32] := by decide
theorem test_bus_byte_write_err :
    answerAndOpa (holding 0x11111111#32 0#32 0#32 [wr 0x00#5 1 0xFF#32]) = some (.err, 0x11111111#32) := by decide
theorem test_bus_misaligned_write_err :
    answerAndOpa (holding 0x11111111#32 0#32 0#32 [wr 0x01#5 4 0x22222222#32]) = some (.err, 0x11111111#32) := by decide
theorem test_bus_write_res0_err :
    answerAndOpa (holding 0x11111111#32 0#32 0#32 [wr 0x14#5 4 5#32]) = some (.err, 0x11111111#32) := by decide
theorem test_bus_read_ctrl :
    answerAndOpa (holding 0x11111111#32 0#32 0#32 [rd 0x0C#5 4]) = some (.okRead 0#32, 0x11111111#32) := by decide
theorem test_bus_write_opa :
    answerAndOpa (holding 0x11111111#32 0#32 0#32 [wr 0x00#5 4 5#32]) = some (.okWrite, 5#32) := by decide
theorem test_reset_clears : results (holding 1#32 2#32 3#32 [.resetAsserted]) = some [0#32, 0#32, 0#32, 0#32] := by decide
theorem test_access_during_reset :
    step { arriving [rd 0x00#5 4] with phase := .inReset } = .refused .accessDuringReset := rfl
theorem test_fetch_word_runs : results ((holding 0xBFC00000#32 0#32 0#32 []).withFetchWord 32 0) =
    some [0x00000001#32, 0x0000007F#32, 0x00400000#32, 0x00000001#32] := by decide

/-! ### Program text (R98, R99) -/

theorem test_assemble_sizes : assemble "WR.h @0x14, 7 # x" = some [.access (.wr .half (.raw 0x14#5) (.lit 7#32))] := by
  decide
theorem test_assemble_pseudo : assemble "deconstruct 0x4229AE14 -> r\nstatus -> st" =
    some [.pseudo (.deconstruct (.lit 0x4229AE14#32) (.user "r")), .pseudo (.status (.user "st"))] := by decide
theorem test_assemble_offset_too_large : assemble "RD @32" = none := by decide
theorem test_assemble_number_too_large : assemble "WR OPA, 4294967296" = none := by decide
theorem test_assemble_missing_operand : assemble "decode 1, 2" = none := by decide

/-! ### Interleaving (R73): another master's CTRL write between the lines of `extract` is seen by what follows -/

/-- RES0 and the answers, the oldest first, after a program's run. -/
def afterRun (turns : List Nat) (ls : List Line) (s : State) : Option (Word × List Response) :=
  match runProgram turns ls s with
  | .next h => some (h.machine.res0, h.machine.answers.reverse)
  | .fault _ => none
  | .refused _ => none

theorem test_run_interleaved :
    afterRun [0, 0, 1] [.pseudo (.extract (.lit 0x80000000#32)), .access (.rd .word (.reg .res0) none)]
      (arriving [.access (ctrlWrite 3#32)]) = some (0#32, [.okWrite, .okWrite, .okWrite, .okRead 0#32]) := by decide
theorem test_run_alone :
    afterRun [] [.pseudo (.extract (.lit 0x80000000#32)), .access (.rd .word (.reg .res0) none)]
      (arriving [.access (ctrlWrite 3#32)]) = some (1#32, [.okWrite, .okWrite, .okRead 1#32]) := by decide

/-! ### A witness for the hypotheses of each statement -/

theorem test_witness_IllegalCommandExactlyWhen : ∃ s : State, s.phase = .serving ∧
    s.port = .access (ctrlWrite 0x3#32) :: [] := ⟨arriving [.access (ctrlWrite 0x3#32)], rfl, rfl⟩

theorem test_witness_StepRunsDecodedCommand : ∀ v ∈ [0x0#32, 0x1#32, 0x2#32], ∃ s : State, ∃ i, s.phase = .serving ∧
    s.port = .access { off := 0x0C#5, req := .write 4 v } :: [] ∧ Sys2Proof.decode v = .ok i := by
  intro v hv
  simp only [List.mem_cons, List.not_mem_nil, or_false] at hv
  rcases hv with rfl | rfl | rfl <;> exact ⟨arriving [wr 0x0C#5 4 _], _, rfl, rfl, rfl⟩

theorem test_witness_FetchWordRunsDecodedCommand : decodeTableWord 2 2 = some .recompose ∧
    decodeTableWord 32 1 = some .decode ∧ decodeTableWord 32 (2 ^ 32) = some .extract := by decide

theorem test_witness_CommandDispatchReadsOperandsAlone : (0x3#32 ≠ 0x0#32 ∧ 0x3#32 ≠ 0x1#32 ∧ 0x3#32 ≠ 0x2#32) ∧
    (holding 1#32 2#32 3#32 []).opa = { holding 1#32 2#32 3#32 [] with res0 := 9#32 }.opa ∧
    (holding 1#32 2#32 3#32 []).opb = { holding 1#32 2#32 3#32 [] with res0 := 9#32 }.opb ∧
    (holding 1#32 2#32 3#32 []).opc = { holding 1#32 2#32 3#32 [] with res0 := 9#32 }.opc := by decide

/-- A served read of any size at any offset, and a word read at each register. -/
theorem test_witness_WordReadReturnsRegister : (∀ (off : Offset) (n : Nat),
      (arriving [rd off n]).phase = .serving ∧ (arriving [rd off n]).port = .access { off := off, req := .read n } :: []) ∧
    ((2 ≠ 4 ∨ (0x00#5).toNat % 4 ≠ 0) ∧ (4 ≠ 4 ∨ (0x1F#5).toNat % 4 ≠ 0)) ∧
    (Reg.off .opa = 0x00#5 ∧ Reg.off .opb = 0x04#5 ∧ Reg.off .opc = 0x08#5 ∧ Reg.off .ctrl = 0x0C#5 ∧
      Reg.off .status = 0x10#5 ∧ Reg.off .res0 = 0x14#5 ∧ Reg.off .res1 = 0x18#5 ∧ Reg.off .res2 = 0x1C#5) :=
  ⟨fun _ _ => ⟨rfl, rfl⟩, by decide, by decide⟩

/-- A served write of any size at any offset; the sizes and offsets of each clause are those of the rows above. -/
theorem test_witness_WordWriteEffects : ∀ (off : Offset) (n : Nat) (v : Word), (arriving [wr off n v]).phase = .serving ∧
    (arriving [wr off n v]).port = .access { off := off, req := .write n v } :: [] := fun _ _ _ => ⟨rfl, rfl⟩

theorem test_witness_EveryAccessGetsOneResponse : ∀ a : Access, (arriving [.access a]).phase = .serving ∧
    (arriving [.access a]).port = .access a :: [] := fun _ => ⟨rfl, rfl⟩

theorem test_witness_RepeatedAccessChangesNothing : ∀ a : Access,
    (arriving [.access a, .access a]).phase = .serving ∧
    (arriving [.access a, .access a]).port = .access a :: .access a :: [] := fun _ => ⟨rfl, rfl⟩

theorem test_witness_AccessAfterCommandSeesItsResults : ∀ (v : Word) (r : Reg) (x : Word),
    (arriving [.access (ctrlWrite v), rd r.off 4]).phase = .serving ∧
    (arriving [.access (ctrlWrite v), rd r.off 4]).port =
      .access (ctrlWrite v) :: .access { off := r.off, req := .read 4 } :: [] ∧
    (arriving [.access (ctrlWrite v), wr r.off 4 x]).port =
      .access (ctrlWrite v) :: .access { off := r.off, req := .write 4 x } :: [] := fun _ _ _ => ⟨rfl, rfl, rfl⟩

/-- The first and the last offset of the window, and the first address above it. -/
theorem test_witness_HostAddressReachesOffset :
    (∃ s : State, ∃ h, s.port = .host h :: [] ∧ h.addr = Config.fdBase + (0#5).toNat) ∧
    (∃ s : State, ∃ h, s.port = .host h :: [] ∧ h.addr = Config.fdBase + (31#5).toNat) ∧
    (∃ s : State, ∃ h, s.port = .host h :: [] ∧ Config.fdBase + 32 ≤ h.addr) :=
  ⟨⟨arriving [.host ⟨⟨0, false, false⟩, Config.fdBase, .read 4⟩], _, rfl, rfl⟩,
    ⟨arriving [.host ⟨⟨0, false, false⟩, Config.fdBase + 31, .read 4⟩], _, rfl, rfl⟩,
    ⟨arriving [.host ⟨⟨0, false, false⟩, Config.fdBase + 32, .read 4⟩], _, rfl, Nat.le_refl _⟩⟩

/-- A run with accesses, a reset, and an access after it. -/
theorem test_witness_DutifulRunHandlesEveryEvent : ∃ s : State, s.port.length = 4 ∧ dutiesKept s.phase s.port :=
  ⟨arriving [.access (ctrlWrite 1#32), .resetDuringCommand 2#32, .resetReleased, rd 0x10#5 4], rfl, rfl, rfl, trivial, rfl,
    trivial⟩

/-- Two DCF32s; an access to the last byte of the second window. -/
theorem test_witness_PlatformAccessTouchesOneInstance : ∃ (h : HostAccess) (ps : List Placed),
    (∃ qs, platformAccess h ps = .next qs) ∧ (∀ p ∈ ps, p.state.phase = .serving) ∧
    ∃ p ∈ ps, p.base ≤ h.addr ∧ h.addr < p.base + 32 := by
  refine ⟨⟨⟨0, false, false⟩, 95, .read 1⟩, [⟨0, State.reset⟩, ⟨64, State.reset⟩], ⟨_, rfl⟩, ?_, ⟨64, State.reset⟩, ?_⟩
  · simp [State.reset]
  · simp

theorem test_witness_ResetSetsEveryRegister : ∃ s : State, s.opa ≠ 0#32 ∧ s.port = .resetAsserted :: [] :=
  ⟨holding 1#32 2#32 3#32 [.resetAsserted], by decide, rfl⟩

theorem test_witness_NoAccessWhileResetAsserted : ∀ a : Access,
    (∃ s : State, s.phase = .inReset ∧ s.port = .access a :: []) ∧
    ∃ s : State, s.port = .resetAsserted :: .resetReleased :: .access a :: [] :=
  fun a => ⟨⟨{ arriving [.access a] with phase := .inReset }, rfl, rfl⟩,
    ⟨arriving [.resetAsserted, .resetReleased, .access a], rfl⟩⟩

theorem test_witness_ResetDuringCommandLeavesResetState : ∀ v : Word, ∃ s : State, s.phase = .serving ∧
    s.port = .resetDuringCommand v :: [] := fun v => ⟨arriving [.resetDuringCommand v], rfl, rfl⟩

theorem test_witness_PowerUpNeedsReset : (∃ s : State, s.port = .powerApplied :: [rd 0x10#5 4]) ∧
    ∀ e : Event, ∃ s : State, s.phase = .unreset ∧ s.port = e :: [] :=
  ⟨⟨arriving [.powerApplied, rd 0x10#5 4], rfl⟩, fun e => ⟨{ arriving [e] with phase := .unreset }, rfl, rfl⟩⟩

theorem test_witness_IdleStepKeepsState : State.reset.port = [] := rfl

theorem test_witness_IllegalCommandOutcome : ∀ v ∈ [0x3#32, 0x4#32, 0xFFFFFFFF#32], (∃ s : State, s.phase = .serving ∧
    s.port = .access (ctrlWrite v) :: []) ∧ v ≠ 0x0#32 ∧ v ≠ 0x1#32 ∧ v ≠ 0x2#32 := by
  intro v hv
  refine ⟨⟨arriving [.access (ctrlWrite v)], rfl, rfl⟩, ?_⟩
  simp only [List.mem_cons, List.not_mem_nil, or_false] at hv
  rcases hv with rfl | rfl | rfl <;> decide

theorem test_witness_ExtractResult : ∃ s t : State, s.opa = 0x4229AE14#32 ∧ exec .extract s = .next t :=
  ⟨holding 0x4229AE14#32 0#32 0#32 [], _, rfl, rfl⟩

/-- The largest fields. -/
theorem test_witness_ExtractResultsAreDecodeDomain :
    (1#32).toNat ≤ 1 ∧ (255#32).toNat ≤ 255 ∧ (0x7FFFFF#32).toNat ≤ 0x7FFFFF := by decide

theorem test_witness_ExtractDependsOnOpaAlone : ∃ s s' : State, s ≠ s' ∧ s.opa = s'.opa :=
  ⟨holding 1#32 2#32 3#32 [], holding 1#32 4#32 5#32 [], by decide, rfl⟩

/-- The example; e = 0 with f = 0; and e = 255. -/
theorem test_witness_DecodeResult : (∃ s t : State, s.opa = 0#32 ∧ s.opb = 132#32 ∧ s.opc = 2731540#32 ∧
    exec .decode s = .next t) ∧ (∃ s t : State, s.opb = 0#32 ∧ s.opc = 0#32 ∧ exec .decode s = .next t) ∧
    ∃ s t : State, s.opb = 255#32 ∧ exec .decode s = .next t :=
  ⟨⟨holding 0#32 132#32 2731540#32 [], _, rfl, rfl, rfl, rfl⟩, ⟨holding 0#32 0#32 0#32 [], _, rfl, rfl, rfl⟩,
    ⟨holding 0#32 255#32 0#32 [], _, rfl, rfl⟩⟩

theorem test_witness_ExpDecodeClosedForm : (0#32 = 0#32) ∧ (1 ≤ (1#32).toNat ∧ (1#32).toNat ≤ 254) ∧
    (1 ≤ (254#32).toNat ∧ (254#32).toNat ≤ 254) ∧ 255 ≤ (255#32).toNat ∧ 255 ≤ (0xFFFFFFFF#32).toNat := by decide

/-- No iteration but the last bit, and the descending order. -/
theorem test_witness_MantissaSumExactInAnyOrder : 22 ≤ 22 ∧ (List.range 23).reverse.Perm (List.range 23) :=
  ⟨by decide, List.reverse_perm _⟩

/-- A zero fraction, the lowest bit alone, and all 23 bits. -/
theorem test_witness_MantDecodeClosedForm : 0xFF800000#32 &&& 0x7FFFFF#32 = 0#32 ∧
    (2 ^ 0 ≤ (1#32 &&& 0x7FFFFF#32).toNat ∧ (1#32 &&& 0x7FFFFF#32).toNat < 2 ^ 1) ∧
    (2 ^ 22 ≤ (0xFFFFFFFF#32 &&& 0x7FFFFF#32).toNat ∧ (0xFFFFFFFF#32 &&& 0x7FFFFF#32).toNat < 2 ^ 23) := by decide

theorem test_witness_SignDecodeByParity : (holding 0#32 0#32 0#32 []).opa = 0#32 ∧
    (holding 1#32 0#32 0#32 []).opa = 1#32 := by decide

theorem test_witness_DecoderProperties : (holding 0#32 127#32 0#32 []).opa = 0#32 ∧ (holding 1#32 127#32 0#32 []).opa = 1#32 ∧
    (holding 0#32 127#32 0#32 []).opb = 127#32 ∧ (holding 0#32 127#32 0#32 []).opc = 0#32 := by decide

theorem test_witness_DecodeOutputDomains : (holding 0#32 254#32 0#32 []).opb.toNat ≤ 254 ∧
    (holding 0#32 255#32 0#32 []).opb = 255#32 := by decide

theorem test_witness_DomainFlagExactlyWhen : ∃ r, Sys2Proof.decode 0x3#32 = .error r := ⟨_, rfl⟩

/-- The least and the greatest normal pattern. -/
theorem test_witness_DecodedFieldsOfNormal :
    classify (holding 0x00800000#32 0#32 0#32 []).opa = .normal ∧
    classify (holding 0xFF7FFFFF#32 0#32 0#32 []).opa = .normal := by decide

theorem test_witness_Round32ReturnsRepresentable :
    (classify 0x00000001#32 ≠ .nan ∧ classify 0x00000001#32 ≠ .infinity) ∧
    (classify 0xFF7FFFFF#32 ≠ .nan ∧ classify 0xFF7FFFFF#32 ≠ .infinity) := by decide

/-- A pattern of every class. -/
theorem test_witness_Fmul32CorrectlyRounded : classify 0x7F800001#32 = .nan ∧ classify 0xFF800000#32 = .infinity ∧
    classify 0x80000000#32 = .zero ∧ classify 0x807FFFFF#32 = .subnormal ∧ classify 0x00800000#32 = .normal ∧
    classify (fmul32 0x80000000#32 0x807FFFFF#32) ≠ .nan := by decide

theorem test_witness_RecomposeResult : ∃ s t : State, s.opa = 0x3F800000#32 ∧ s.opb = 0x42000000#32 ∧
    s.opc = 0x3EA6B850#32 ∧ exec .recompose s = .next t :=
  ⟨holding 0x3F800000#32 0x42000000#32 0x3EA6B850#32 [], _, rfl, rfl, rfl, rfl⟩

theorem test_witness_PseudoExpansions : (0 : Nat) ≠ 1 := by decide

/-- A NaN that the arithmetic makes, and a signalling NaN operand. -/
theorem test_witness_NanResultsAreCanonical : classify (product3 0x7F800000#32 0#32 0#32) = .nan ∧
    classify (holding 0#32 0#32 0xFF800001#32 []).opc = .nan := by decide

/-- A NaN operand, both products 0 × ∞ in both orders, an infinite first product times a finite value, a product of exactly
2^−150 and one of exactly 2^128. -/
theorem test_witness_RecomposeCornerCases : classify 0x7F800001#32 = .nan ∧
    (classify 0xFF800000#32 = .infinity ∧ classify 0x80000000#32 = .zero) ∧
    (classify (fmul32 0x7F800000#32 0x3F800000#32) = .infinity ∧ classify 0x80000000#32 = .zero) ∧
    (classify (fmul32 0x80000000#32 0x3F800000#32) = .zero ∧ classify 0xFF800000#32 = .infinity) ∧
    (classify (fmul32 0x7F000000#32 0x7F000000#32) = .infinity ∧ classify 0x00000001#32 = .subnormal) ∧
    (classify (fmul32 0x00000001#32 0x3F800000#32) = .subnormal ∧ classify (fmul32 0x7F7FFFFF#32 0x3F800000#32) = .normal) ∧
    (classify 0x3F000000#32 = .normal ∧ |val32 0x00000001#32| * |val32 0x3F000000#32| ≤ 2 ^ (-150 : ℤ)) ∧
    (classify 0x40000000#32 = .normal ∧ 2 ^ (128 : ℤ) ≤ |val32 0x7F000000#32| * |val32 0x40000000#32|) := by
  refine ⟨by decide, by decide, by decide, by decide, by decide, by decide, ⟨by decide, ?_⟩, by decide, ?_⟩
  · rw [abs_val32, abs_val32, (by decide : magnitude 0x00000001#32 = ⟨1, -149⟩),
      (by decide : magnitude 0x3F000000#32 = ⟨2 ^ 23, -24⟩), Mag.value_eq, Mag.value_eq]
    norm_num
  · rw [abs_val32, abs_val32, (by decide : magnitude 0x7F000000#32 = ⟨2 ^ 23, 104⟩),
      (by decide : magnitude 0x40000000#32 = ⟨2 ^ 23, -22⟩), Mag.value_eq, Mag.value_eq]
    norm_num

/-- Both signs; e = 1 and 254 with g = 0; p + e = 24 and 23; e = 0; e = 255 with g = 0 and g ≠ 0. -/
theorem test_witness_RecomposeOfDecodedClosedForm :
    ((holding 0#32 1#32 0x800000#32 []).opa = 0#32 ∧ (holding 1#32 254#32 0#32 []).opa = 1#32) ∧
    (0#32 = 0x800000#32 &&& 0x7FFFFF#32 ∧ 0x400000#32 = 0x400000#32 &&& 0x7FFFFF#32 ∧ 1 ≤ (1#32).toNat ∧
      (254#32).toNat ≤ 254) ∧
    (2 ^ 22 ≤ (0x400000#32).toNat ∧ (0x400000#32).toNat < 2 ^ 23 ∧ 24 ≤ 22 + (2#32).toNat ∧ 22 + (1#32).toNat ≤ 23) ∧
    255 ≤ (255#32).toNat ∧ 0x400000#32 ≠ 0#32 := by decide

theorem test_witness_ReconstructionOmitsImplicitOne : ∃ s t : State, classify s.opa = .normal ∧
    exec .extract s = .next t ∧ t.res2 = 0#32 := ⟨holding 0xBF800000#32 0#32 0#32 [], _, by decide, rfl, by decide⟩

/-- x = 1.0; E = 24 and 23 with F = 1; a subnormal; +∞; a NaN. -/
theorem test_witness_DeconstructClosedForm : State.reset.phase = .serving ∧
    (classify 0x3F800000#32 = .normal ∧ fracField 0x3F800000#32 = 0#32) ∧
    (classify 0x0C000001#32 = .normal ∧ 2 ^ 0 ≤ (fracField 0x0C000001#32).toNat ∧
      (fracField 0x0C000001#32).toNat < 2 ^ 1 ∧ 24 ≤ 0 + (expField 0x0C000001#32).toNat) ∧
    (classify 0x0B800001#32 = .normal ∧ 2 ^ 0 ≤ (fracField 0x0B800001#32).toNat ∧
      (fracField 0x0B800001#32).toNat < 2 ^ 1 ∧ 0 + (expField 0x0B800001#32).toNat ≤ 23) ∧
    expField 0x00000003#32 = 0#32 ∧ classify 0xFF800000#32 = .infinity ∧ classify 0xFFC00001#32 = .nan := by decide

/-- Another master's CTRL write comes before the second line; a program without turns; an ill-formed one. -/
theorem test_witness_WellFormedProgramRunsToEnd :
    (∃ (turns : List Nat) (ls : List Line) (s : State), s.phase = .serving ∧ (expandProgram ls).length = 2 ∧
      (turns.take 2).sum = 1 ∧ s.port.length = 2 ∧ (∀ e ∈ s.port.take 1, servedAccess e) ∧ programWellFormed ls = true) ∧
    programWellFormed [.pseudo (.deconstruct (.lit 3#32) (.user "r")), .access (.wr .word (.reg .opb) (.name (.user "r")))]
      = true ∧
    programWellFormed [.access (.wr .word (.reg .opb) (.name (.user "r")))] = false :=
  ⟨⟨[0, 1], [.pseudo (.extract (.lit 3#32))], arriving [.access (ctrlWrite 2#32), .resetAsserted], rfl, rfl, rfl, rfl,
    by simp [arriving, servedAccess], by decide⟩, by decide, by decide⟩

/-- A run in which another master's CTRL write comes before the second line. -/
theorem test_witness_ProgramRunFollowsOnePortOrder :
    (∃ h, runProgram [0, 1] [.pseudo (.extract (.lit 3#32))] (arriving [.access (ctrlWrite 2#32)]) = .next h) ∧
    [[], [Event.resetAsserted]].length = [ctrlWrite 0#32, ctrlWrite 1#32].length := ⟨⟨_, rfl⟩, rfl⟩

/-- The state that EXTRACT of −1.5 leaves, a DECODE to come. -/
theorem test_witness_StepKeepsResultsConsistent : ∃ s t : State, Inv s ∧ s.status.valid = true ∧ step s = .next t := by
  refine ⟨{ holding 0xBFC00000#32 0#32 0#32 [.access (ctrlWrite 1#32)] with
    res0 := 1#32, res1 := 0x7F#32, res2 := 0x400000#32, status := Status.legal 0#2 false }, _, ⟨?_, fun _ => ?_⟩, rfl, rfl⟩
  · intro h; cases h
  · constructor <;> simp [Status.legal]
    constructor <;> decide

end Sys2Proof.Tests
end

/-! PROOFS. Round32 on integers and on rationals, the classes, the NaNs, what each command leaves in the results, and the
invariant (spec R10 to R17, R38 to R45, R113, R141, R230). -/

namespace Sys2Proof.Machine

/-! ### Rounding: the integer form and the rational one -/

/-- Packing is the same branching as the end of R13, so Round32 of a positive rational is one packing of what RNE keeps. -/
theorem round32Exact_of_ne_zero (b : Bool) {r : ℚ} (h : r ≠ 0) {t : ℤ} (ht : max (Int.log 2 r - 23) (-149) = t) :
    round32Exact b r =
      if rne (r / 2 ^ t) = 2 ^ 24 then packKept b (2 ^ 23) (t + 1) else packKept b (rne (r / 2 ^ t)) t := by
  subst ht
  simp only [round32Exact, if_neg h]
  split <;> rfl

/-- The integer rounding is Round32 of the magnitude's value: both keep RNE of the same number at the same last place
(R13, assumption 11). -/
theorem round32_eq_round32Exact (b : Bool) (m : Nat) (e : Int) :
    round32 b ⟨m, e⟩ = round32Exact b ((m : ℚ) * 2 ^ e) := by
  by_cases hm : m = 0
  · subst hm
    simp [round32, round32Exact]
  · have hr : (m : ℚ) * 2 ^ e ≠ 0 := mul_ne_zero (Nat.cast_ne_zero.2 hm) (zpow_ne_zero e two_ne_zero)
    have kept (t : ℤ) : rneScale m (e - t) = rne ((m : ℚ) * 2 ^ e / 2 ^ t) := by
      rw [rneScale_eq_rne, zpow_sub₀ two_ne_zero, mul_div_assoc]
    rw [round32Exact_of_ne_zero b hr rfl, log_two_mul_zpow hm]
    simp only [round32, if_neg hm, kept]

/-- Round32 of the absolute value of a finite pattern, with its sign, is the pattern (R12, R13, R17). -/
theorem round32Exact_abs_val32 {x : Word} (h : (expField x).toNat ≠ 255) : round32Exact (isNeg x) |val32 x| = x :=
  calc round32Exact (isNeg x) |val32 x|
      = round32 (isNeg x) (magnitude x) := by rw [abs_val32, Mag.value_eq, ← round32_eq_round32Exact]
    _ = packFields (isNeg x) (expField x).toNat (fracField x).toNat := round32_magnitude _ x h
    _ = x := packFields_fields x

/-! ### Classes -/

/-- A magnitude of at most 24 significant bits in the normal range rounds to a normal number (R11, R13). -/
theorem classify_round32_normal (b : Bool) {m p : Nat} {e : Int} (h₁ : 2 ^ p ≤ m) (h₂ : m < 2 ^ (p + 1)) (hp : p ≤ 23)
    (h₃ : -126 ≤ p + e) (h₄ : p + e ≤ 127) : classify (round32 b ⟨m, e⟩) = .normal := by
  have hhi : m * 2 ^ (23 - p) < 2 ^ 24 :=
    calc m * 2 ^ (23 - p) < 2 ^ (p + 1) * 2 ^ (23 - p) := Nat.mul_lt_mul_of_pos_right h₂ (Nat.two_pow_pos _)
      _ = 2 ^ 24 := by rw [← Nat.pow_add]; congr 1; omega
  rw [round32_normal b h₁ h₂ hp h₃ h₄, classify_eq_normal, expField_packFields _ (by omega) (by omega)]
  omega

/-- The exponent field as a slice of the pattern (R10). -/
theorem extract_exponent_eq_iff (x : Word) (n : BitVec 8) : x.extractLsb' 23 8 = n ↔ (expField x).toNat = n.toNat := by
  rw [← BitVec.toNat_inj, BitVec.extractLsb'_toNat, expField_toNat, Nat.shiftRight_eq_div_pow]

/-- The fraction field as a slice of the pattern (R10). -/
theorem extract_fraction_eq_zero_iff (x : Word) : x.extractLsb' 0 23 = 0#23 ↔ (fracField x).toNat = 0 := by
  rw [← BitVec.toNat_inj, BitVec.extractLsb'_toNat, fracField_toNat, Nat.shiftRight_zero, BitVec.toNat_ofNat,
    Nat.zero_mod]

/-- A pattern of neither class infinity nor class NaN has an exponent field below 255 (R11). -/
theorem expField_ne_of_finite {x : Word} (hn : classify x ≠ .nan) (hi : classify x ≠ .infinity) :
    (expField x).toNat ≠ 255 := by
  rw [ne_eq, classify_eq_nan] at hn
  rw [ne_eq, classify_eq_infinity] at hi
  omega

/-! ### NaNs -/

/-- A sign bit over +infinity is an infinity (R14). -/
theorem classify_signBit_or_posInf (b : Bool) : classify (signBit b ||| posInf) = .infinity := by cases b <;> decide

/-- A sign bit alone is a zero (R14). -/
theorem classify_signBit (b : Bool) : classify (signBit b) = .zero := by cases b <;> decide

/-- A NaN factor gives the canonical NaN (R15, R171). -/
theorem fmul32_of_nan {x y : Word} (h : classify x = .nan ∨ classify y = .nan) : fmul32 x y = canonNaN := by
  rw [fmul32, if_pos h]

/-- FMul32 gives no NaN but the canonical one: an infinity, a zero and a rounded product are none (R15, R171). -/
theorem fmul32_nan_canonical {x y : Word} (h : classify (fmul32 x y) = .nan) : fmul32 x y = canonNaN := by
  unfold fmul32 at h ⊢
  split_ifs at h ⊢
  · rfl
  · rfl
  · rw [classify_signBit_or_posInf] at h; cases h
  · rw [classify_signBit] at h; cases h
  · exact absurd h (round32_not_nan _ _)

/-- A NaN among three factors gives the canonical NaN (R15, R172). -/
theorem product3_of_nan {a b c : Word} (h : classify a = .nan ∨ classify b = .nan ∨ classify c = .nan) :
    product3 a b c = canonNaN := by
  have first (hab : classify a = .nan ∨ classify b = .nan) : classify (fmul32 a b) = .nan := by
    rw [fmul32_of_nan hab]; decide
  refine fmul32_of_nan ?_
  obtain ha | hb | hc := h
  · exact .inl (first (.inl ha))
  · exact .inl (first (.inr hb))
  · exact .inr hc

/-! ### What each command leaves in the results -/

/-- The sign value is +1.0 or −1.0 (R131, R141). -/
theorem signDecode_cases (s : Word) : signDecode s = posOne ∨ signDecode s = negOne := by
  unfold signDecode
  split
  · exact .inr rfl
  · exact .inl rfl

/-- The sign value is no NaN. -/
theorem signDecode_not_nan (s : Word) : classify (signDecode s) ≠ .nan := by
  obtain h | h := signDecode_cases s <;> rw [h] <;> decide

/-- The exponent value is no NaN (R133). -/
theorem expDecode_not_nan (e : Word) : classify (expDecode e) ≠ .nan := round32_not_nan _ _

/-- The mantissa value is no NaN (R136). -/
theorem mantDecode_not_nan (f : Word) : classify (mantDecode f) ≠ .nan := by
  rw [mantDecode_eq]; exact round32_not_nan _ _

/-- The exponent value is 2^-127, a power of two in the normal range, or +infinity (R133, R141). -/
theorem expDecode_cases (e : Word) : expDecode e = 0x00400000#32 ∨
    (∃ k : Nat, 1 ≤ k ∧ k ≤ 254 ∧ expDecode e = BitVec.ofNat 32 k <<< 23) ∨ expDecode e = posInf := by
  rw [expDecode_eq]
  split_ifs with h0 h1
  · exact .inl rfl
  · exact .inr (.inl ⟨e.toNat, by omega, h1, by simp [packFields, signBit]⟩)
  · exact .inr (.inr rfl)

/-- The mantissa value of a zero fraction is +0.0 (R136). -/
theorem mantDecode_of_zero {f : Word} (h : f.toNat % 2 ^ 23 = 0) : mantDecode f = posZero := by
  rw [mantDecode_eq, h, round32_zero]; rfl

/-- The mantissa value is exactly the fraction times 2^-23 (R135). -/
theorem val32_mantDecode (f : Word) : val32 (mantDecode f) = ((f.toNat % 2 ^ 23 : ℕ) : ℚ) * 2 ^ (-23 : ℤ) := by
  rw [mantDecode_eq, val32_round32 false (by omega) (by omega) (by omega)]
  simp

/-- The mantissa value of a non-zero fraction is a normal number, since its highest bit weighs at least 2^-23 (R135). -/
theorem classify_mantDecode_of_ne_zero {f : Word} (h : f.toNat % 2 ^ 23 ≠ 0) : classify (mantDecode f) = .normal := by
  have hlt : f.toNat % 2 ^ 23 < 2 ^ 23 := Nat.mod_lt _ (by norm_num)
  have hp : Nat.log2 (f.toNat % 2 ^ 23) < 23 := (Nat.log2_lt h).2 hlt
  rw [mantDecode_eq]
  exact classify_round32_normal false (Nat.log2_self_le h) Nat.lt_log2_self (by omega) (by omega) (by omega)

/-- EXTRACT leaves the fields of OPA in their ranges (R113). -/
theorem extractResults (x : Word) : ExtractResults (signField x) (expField x) (fracField x) where
  sign := by have := x.isLt; rw [signField_toNat]; omega
  exponent := by have := expField_lt x; omega
  fraction := by have := fracField_lt x; omega

/-- DECODE leaves its output domains, whatever its operands (R141). -/
theorem decodeResults (s e f : Word) : DecodeResults (signDecode s) (expDecode e) (mantDecode f) where
  sign := signDecode_cases s
  exponent := expDecode_cases e
  fraction := by
    by_cases h : f.toNat % 2 ^ 23 = 0
    · exact .inl (mantDecode_of_zero h)
    · exact .inr ⟨(mantDecode_finite f).2, classify_mantDecode_of_ne_zero h, f.toNat % 2 ^ 23, by omega, by omega,
        val32_mantDecode f⟩

/-- RECOMPOSE leaves no NaN but the canonical one, and 0 in RES1 and RES2 (R15, R44, R45). -/
theorem recomposeResults (a b c : Word) : RecomposeResults (product3 a b c) 0x00000000#32 0x00000000#32 where
  nan := fmul32_nan_canonical
  res1 := rfl
  res2 := rfl

/-! ### The invariant -/

/-- What a command leaves fits together, whatever the state before it (R38 to R45). -/
theorem exec_consistent {i : Instr} {s t : State} (h : exec i s = .next t) : Consistent t := by
  cases i <;> cases h
  case extract => constructor <;> simp [Status.legal, extractResults]
  case decode => constructor <;> simp [Status.legal, decodeResults]
  case recompose => constructor <;> simp [Status.legal, recomposeResults]

/-- What an illegal CTRL word leaves fits together (R203). -/
theorem illegalCommand_consistent (s : State) (v : Word) : Consistent (s.illegalCommand v) := by
  constructor <;> simp [Status.illegal]

/-- What any CTRL word leaves fits together (R92). -/
theorem command_consistent {v : Word} {s t : State} (h : command v s = .next t) : Consistent t := by
  unfold command at h
  split at h
  · exact exec_consistent h
  · cases h; exact illegalCommand_consistent s v

/-- Serving an access keeps STATUS and the results fitting together: only a command changes them (R65, R70). -/
theorem serve_consistent {a : Access} {s t : State} (hs : Consistent s) (h : serve a s = .next t) : Consistent t := by
  rcases serve_cases a s with ⟨_, _, e⟩ | ⟨_, v, _, ⟨_, e⟩ | ⟨_, e⟩ | ⟨_, e⟩ | ⟨_, u, hc, e⟩ | e⟩ <;>
    cases e.symm.trans h
  · exact hs.congr rfl rfl rfl rfl
  · exact hs.congr rfl rfl rfl rfl
  · exact hs.congr rfl rfl rfl rfl
  · exact hs.congr rfl rfl rfl rfl
  · exact (command_consistent hc).congr rfl rfl rfl rfl
  · exact hs.congr rfl rfl rfl rfl

/-- A state at its reset values meets the invariant in every phase (R230). -/
theorem Inv.of_reset {s : State} (h : SameRegisters s State.reset) : Inv s where
  inReset _ := h
  consistent _ := Consistent.of_reset h

/-- The invariant speaks of the phase and the registers alone. -/
theorem Inv.setPort {s : State} (h : Inv s) (p : List Event) : Inv { s with port := p } where
  inReset hp := by
    obtain ⟨h1, h2, h3, h4, h5, h6, h7⟩ := h.inReset hp
    exact ⟨h1, h2, h3, h4, h5, h6, h7⟩
  consistent hp := (h.consistent hp).congr rfl rfl rfl rfl

/-- Serving an access keeps the invariant (R60). -/
theorem serve_inv {a : Access} {s t : State} (hs : Inv s) (hp : s.phase = .serving) (h : serve a s = .next t) : Inv t := by
  obtain ⟨u, r, hu, hphase, -⟩ := serve_next a s
  cases hu.symm.trans h
  have ht : t.phase = .serving := hphase.trans hp
  exact ⟨by simp [ht], fun _ => serve_consistent (hs.consistent (by simp [hp])) h⟩

/-- Releasing reset keeps the invariant: what the reset left fits together (R230, R232). -/
theorem releaseReset_inv {s : State} (hs : Inv s) : Inv s.releaseReset := by
  unfold State.releaseReset
  cases hp : s.phase with
  | inReset => exact ⟨by simp, fun _ => (hs.consistent (by simp [hp])).congr rfl rfl rfl rfl⟩
  | unreset => exact hs
  | serving => exact hs

/-- After power is applied the invariant says nothing until a reset (R231). -/
theorem powerUp_inv (s : State) : Inv s.powerUp where
  inReset h := by cases h
  consistent h := absurd rfl h

/-- Handling an event keeps the invariant. -/
theorem handle_inv {e : Event} {s t : State} (hs : Inv s) (h : handle e s = .next t) : Inv t := by
  obtain ⟨a, hp, ha⟩ | rfl | ⟨-, rfl⟩ | rfl | rfl := handle_next_cases h
  · exact serve_inv hs hp ha
  · exact .of_reset ⟨rfl, rfl, rfl, rfl, rfl, rfl, rfl⟩
  · exact .of_reset (by constructor <;> simp [State.assertResetDuringCommand, State.reset])
  · exact releaseReset_inv hs
  · exact powerUp_inv s

/-- Settles O53: a step is idle or handles one event, and every event keeps the invariant. -/
theorem stepKeepsResultsConsistent : Obligations.StepKeepsResultsConsistent := by
  intro s t hs h
  cases hp : s.port with
  | nil =>
    rw [step_idle hp] at h
    cases h
    exact hs
  | cons e rest =>
    rw [step_event hp] at h
    exact handle_inv (hs.setPort rest) h

/-- Settles O39: each class is a condition on the two fields as numbers, and the slices are those fields. -/
theorem classTable : Obligations.ClassTable := by
  intro x
  simp only [ne_eq, extract_exponent_eq_iff, extract_fraction_eq_zero_iff, BitVec.toNat_ofNat]
  refine ⟨classify_eq_nan x, classify_eq_infinity x, classify_eq_zero x, classify_eq_subnormal x, ?_⟩
  have := expField_lt x
  rw [classify_eq_normal]
  omega

/-- Settles O40: the two roundings keep the same number at the same last place. -/
theorem roundingIsRound32 : Obligations.RoundingIsRound32 := round32_eq_round32Exact

/-- Settles O41: the integer rounding does not round the magnitude of a finite pattern. -/
theorem round32ReturnsRepresentable : Obligations.Round32ReturnsRepresentable :=
  fun _ hn hi => round32Exact_abs_val32 (expField_ne_of_finite hn hi)

/-- Settles O44: RECOMPOSE's result is a product of FMul32, and DECODE's are ±1.0 and two rounded numbers. -/
theorem nanResultsAreCanonical : Obligations.NanResultsAreCanonical := fun s =>
  ⟨⟨_, rfl, fmul32_nan_canonical, product3_of_nan⟩,
    ⟨_, rfl, signDecode_not_nan s.opa, expDecode_not_nan s.opb, mantDecode_not_nan s.opc⟩⟩

end Sys2Proof.Machine

/-! PROOFS. STATUS: the word a read of it returns, bit by bit, and what the commands and a reset leave in DOM (spec R37 to
R42, R139). -/

namespace Sys2Proof.Machine

/-! ### STATUS as a word -/

/-- A truth value as a word has bit 0 alone (R8). -/
@[simp] theorem getLsbD_bitWord (b : Bool) (i : Nat) : (bitWord b).getLsbD i = (decide (i = 0) && b) := by
  cases b <;> simp [bitWord, BitVec.getLsbD_one]

/-- The same for a bit inside the word, the form in which `simp` writes a bit at a literal place. -/
@[simp] theorem getElem_bitWord (b : Bool) (i : Nat) (h : i < 32) : (bitWord b)[i] = (decide (i = 0) && b) :=
  getLsbD_bitWord b i

/-- Every bit of STATUS as read: VALID, ILL, DOM, and from bit 3 on LASTOP, which has two bits (R37, R42). -/
theorem Status.getLsbD_word (t : Status) (i : Nat) : t.word.getLsbD i =
    match i with
    | 0 => t.valid
    | 1 => t.ill
    | 2 => t.dom
    | j + 3 => t.lastop.getLsbD j := by
  match i with
  | 0 => simp [Status.word]
  | 1 => simp [Status.word]
  | 2 => simp [Status.word]
  | j + 3 =>
    by_cases hj : j < 2
    · simp [Status.word, show j + 3 < 32 by omega]
    · simp [Status.word, t.lastop.getLsbD_of_ge j (by omega)]

/-- Settles O12: bit by bit; from bit 5 on STATUS shows bits that LASTOP does not have. -/
theorem statusLayout : Obligations.StatusLayout := by
  refine fun s => ⟨s.status.getLsbD_word 0, s.status.getLsbD_word 1, s.status.getLsbD_word 2, ?_, ?_⟩
  · refine BitVec.eq_of_getLsbD_eq fun j hj => ?_
    simp [State.readReg, hj, Nat.add_comm 3, Status.getLsbD_word]
  · refine BitVec.eq_of_getLsbD_eq fun j hj => ?_
    have past : s.status.word.getLsbD (5 + j) = s.status.lastop.getLsbD (2 + j) := by
      rw [show 5 + j = (2 + j) + 3 by omega, Status.getLsbD_word]
    simp [State.readReg, past]

/-! ### STATUS.DOM -/

@[simp] theorem Status.legal_dom (op : BitVec 2) (dom : Bool) : (Status.legal op dom).dom = dom := rfl
@[simp] theorem Status.illegal_dom (op : BitVec 2) : (Status.illegal op).dom = false := rfl
@[simp] theorem Status.reset_dom : Status.reset.dom = false := rfl

/-- Every command completes, and it sets DOM exactly when it is DECODE and the domain test fails (R40, R139). -/
theorem exec_dom (i : Instr) (s : State) :
    ∃ t, exec i s = .next t ∧ t.status.dom = (decide (i = .decode) && outOfDomain s.opa s.opb s.opc) := by
  cases i <;> exact ⟨_, rfl, by simp [State.operandA, State.operandB, State.operandC]⟩

/-- A word that decodes to no command has the illegal-command outcome (R92, R203). -/
theorem command_of_illegal {v : Word} {r : DecodeReject} (h : Sys2Proof.decode v = .error r) (s : State) :
    command v s = .next (s.illegalCommand v) := by
  rw [command, h]

/-- Settles O35: DOM after each command is `exec_dom`, and the illegal-command outcome and a reset write it 0. -/
theorem domainFlagExactlyWhen : Obligations.DomainFlagExactlyWhen := by
  intro s
  refine ⟨?_, exec_dom .extract s, exec_dom .recompose s, fun v r h => ?_, ?_⟩
  · obtain ⟨t, ht, hdom⟩ := exec_dom .decode s
    exact ⟨t, ht, by simp [hdom, outOfDomain_eq]⟩
  · exact ⟨_, command_of_illegal h s, by simp⟩
  · simp

end Sys2Proof.Machine

/-! PROOFS. The port: what an access answered ERR and one answered OK do, accesses that follow one another, host addresses,
which steps are refused, several DCF32s on a platform (spec R60 to R76, R200, R204, R209, R212, R231, R232, R240). -/

namespace Sys2Proof.Machine

/-! ### Registers that stay -/

/-- The same registers give the same reads (R64). -/
theorem SameRegisters.readReg_eq {s t : State} (h : SameRegisters s t) (r : Reg) : s.readReg r = t.readReg r := by
  obtain ⟨h1, h2, h3, h4, h5, h6, h7⟩ := h
  cases r <;> simp [State.readReg, *]

/-- Recording a response changes no register (R60). -/
theorem SameRegisters.answer (s : State) (r : Response) : SameRegisters s (s.answer r) :=
  ⟨rfl, rfl, rfl, rfl, rfl, rfl, rfl⟩

/-- What is still to arrive is no register (R30). -/
theorem SameRegisters.setPort {s t : State} (h : SameRegisters s t) (p q : List Event) :
    SameRegisters { s with port := p } { t with port := q } := by
  obtain ⟨h1, h2, h3, h4, h5, h6, h7⟩ := h
  exact ⟨h1, h2, h3, h4, h5, h6, h7⟩

/-! ### Each word access -/

/-- A word read at a register's offset returns the register (R64). -/
theorem serve_readReg (r : Reg) (s : State) :
    serve ⟨r.off, .read 4⟩ s = .next (s.answer (.okRead (s.readReg r))) := by
  rw [← busRead_reg r s]; rfl

/-- A word write to OPA changes OPA alone (R65). -/
theorem serve_writeOpa (v : Word) (s : State) :
    serve ⟨Reg.opa.off, .write 4 v⟩ s = .next ((s.setOpa v).answer .okWrite) := busWrite_reg .opa v s

/-- A word write to OPB changes OPB alone (R65). -/
theorem serve_writeOpb (v : Word) (s : State) :
    serve ⟨Reg.opb.off, .write 4 v⟩ s = .next ((s.setOpb v).answer .okWrite) := busWrite_reg .opb v s

/-- A word write to OPC changes OPC alone (R65). -/
theorem serve_writeOpc (v : Word) (s : State) :
    serve ⟨Reg.opc.off, .write 4 v⟩ s = .next ((s.setOpc v).answer .okWrite) := busWrite_reg .opc v s

/-- A word write to an operand register leaves the results and STATUS, and the register then holds the word (R65). -/
theorem serve_writeOperand {r : Reg} (hr : r = .opa ∨ r = .opb ∨ r = .opc) (v : Word) (s : State) :
    ∃ t, serve ⟨r.off, .write 4 v⟩ s = .next t ∧ t.res0 = s.res0 ∧ t.res1 = s.res1 ∧ t.res2 = s.res2 ∧
      t.status = s.status ∧ t.readReg r = v := by
  obtain rfl | rfl | rfl := hr
  · exact ⟨_, serve_writeOpa v s, rfl, rfl, rfl, rfl, rfl⟩
  · exact ⟨_, serve_writeOpb v s, rfl, rfl, rfl, rfl, rfl⟩
  · exact ⟨_, serve_writeOpc v s, rfl, rfl, rfl, rfl, rfl⟩

/-- A word write to CTRL is a command, answered OK (R70, R90). -/
theorem serve_ctrlWrite {v : Word} {s t : State} (h : command v s = .next t) :
    serve (ctrlWrite v) s = .next (t.answer .okWrite) :=
  calc serve (ctrlWrite v) s = answering .okWrite (command v s) := busWrite_reg .ctrl v s
    _ = .next (t.answer .okWrite) := by rw [h]; rfl

/-! ### Accesses answered ERR and accesses answered OK -/

/-- The aligned offsets below 0x10 are those of the registers that take a write (R30, R65). -/
theorem writable_off_cases (off : Offset) : off.toNat % 4 = 0 → off.toNat < 16 →
    off = Reg.opa.off ∨ off = Reg.opb.off ∨ off = Reg.opc.off ∨ off = Reg.ctrl.off := by
  revert off; decide

/-- The aligned offsets from 0x10 on are those of the registers that no write reaches (R30, R66). -/
theorem readOnly_off_cases (off : Offset) : off.toNat % 4 = 0 → 16 ≤ off.toNat →
    off = Reg.status.off ∨ off = Reg.res0.off ∨ off = Reg.res1.off ∨ off = Reg.res2.off := by
  revert off; decide

/-- A write that is no aligned word write, or that goes to STATUS or a result, is a bus error (R63, R66). -/
theorem busWrite_eq_busError {off : Offset} {n : Nat} (h : n ≠ 4 ∨ off.toNat % 4 ≠ 0 ∨ 16 ≤ off.toNat) (v : Word)
    (s : State) : busWrite off n v s = .next s.busError := by
  by_cases hsel : n ≠ 4 ∨ off.toNat % 4 ≠ 0
  · exact busWrite_err hsel v s
  · obtain rfl : n = 4 := by omega
    obtain rfl | rfl | rfl | rfl := readOnly_off_cases off (by omega) (by omega) <;> exact busWrite_reg _ v s

/-- The causes of ERR: the size, the offset, a write to STATUS or a result (R63, R66). -/
def Access.isBusError (a : Access) : Prop :=
  a.req.bytes ≠ 4 ∨ a.off.toNat % 4 ≠ 0 ∨ ((∃ n v, a.req = .write n v) ∧ 0x10 ≤ a.off.toNat)

/-- A read has a cause of ERR exactly when it is no aligned word read (R63). -/
theorem isBusError_read_iff (off : Offset) (n : Nat) :
    Access.isBusError ⟨off, .read n⟩ ↔ n ≠ 4 ∨ off.toNat % 4 ≠ 0 := by
  simp [Access.isBusError, Request.bytes]

/-- A write has a cause of ERR exactly when it is no aligned word write below 0x10 (R63, R66). -/
theorem isBusError_write_iff (off : Offset) (n : Nat) (v : Word) :
    Access.isBusError ⟨off, .write n v⟩ ↔ n ≠ 4 ∨ off.toNat % 4 ≠ 0 ∨ 16 ≤ off.toNat := by
  simp [Access.isBusError, Request.bytes]

/-- An access with one of these causes is answered ERR and does nothing else (R204). -/
theorem serve_of_isBusError {a : Access} (h : a.isBusError) (s : State) : serve a s = .next s.busError := by
  obtain ⟨off, n | ⟨n, v⟩⟩ := a
  · simp only [serve, busRead_err ((isBusError_read_iff off n).1 h), State.busError]
  · exact busWrite_eq_busError ((isBusError_write_iff off n v).1 h) v s

/-- An access with none of them is a word access to a register: a read returns it, a write to an operand register changes
that register alone, a write to CTRL is a command (R64, R65). -/
theorem serve_of_not_isBusError {a : Access} (h : ¬ a.isBusError) (s : State) :
    (∃ r : Reg, a = ⟨r.off, .read 4⟩ ∧ serve a s = .next (s.answer (.okRead (s.readReg r)))) ∨
    (∃ v, a = ⟨Reg.opa.off, .write 4 v⟩ ∧ serve a s = .next ((s.setOpa v).answer .okWrite)) ∨
    (∃ v, a = ⟨Reg.opb.off, .write 4 v⟩ ∧ serve a s = .next ((s.setOpb v).answer .okWrite)) ∨
    (∃ v, a = ⟨Reg.opc.off, .write 4 v⟩ ∧ serve a s = .next ((s.setOpc v).answer .okWrite)) ∨
    (∃ v x y z st, a = ctrlWrite v ∧ command v s = .next (s.complete x y z st) ∧
      serve a s = .next ((s.complete x y z st).answer .okWrite)) := by
  obtain ⟨off, n | ⟨n, v⟩⟩ := a
  · rw [isBusError_read_iff, ← selectReg_eq_none_iff, ← ne_eq, Option.ne_none_iff_exists'] at h
    obtain ⟨r, hr⟩ := h
    obtain ⟨rfl, rfl⟩ := (selectReg_eq_some_iff off n r).1 hr
    exact .inl ⟨r, rfl, serve_readReg r s⟩
  · rw [isBusError_write_iff] at h
    obtain rfl : n = 4 := by omega
    obtain rfl | rfl | rfl | rfl := writable_off_cases off (by omega) (by omega)
    · exact .inr (.inl ⟨v, rfl, serve_writeOpa v s⟩)
    · exact .inr (.inr (.inl ⟨v, rfl, serve_writeOpb v s⟩))
    · exact .inr (.inr (.inr (.inl ⟨v, rfl, serve_writeOpc v s⟩)))
    · obtain ⟨x, y, z, st, e⟩ := command_completes v s
      exact .inr (.inr (.inr (.inr ⟨v, x, y, z, st, rfl, e, serve_ctrlWrite e⟩)))

/-- The response to such an access is the kind of OK its request asks for (R60). -/
theorem serve_response_ok {a : Access} {s t : State} {r : Response} (h : ¬ a.isBusError) (ht : serve a s = .next t)
    (hans : t.answers = r :: s.answers) :
    (∃ n d, a.req = .read n ∧ r = .okRead d) ∨ (∃ n v, a.req = .write n v ∧ r = .okWrite) := by
  obtain ⟨r, rfl, e⟩ | ⟨v, rfl, e⟩ | ⟨v, rfl, e⟩ | ⟨v, rfl, e⟩ | ⟨v, x, y, z, st, rfl, -, e⟩ :=
    serve_of_not_isBusError h s <;> cases e.symm.trans ht <;> cases hans
  · exact .inl ⟨_, _, rfl, rfl⟩
  all_goals exact .inr ⟨_, _, rfl, rfl⟩

/-- A read changes no register (R67). -/
theorem serve_read_sameRegisters {a : Access} {n : Nat} {s t : State} (hr : a.req = .read n) (h : serve a s = .next t) :
    SameRegisters s t := by
  rw [serve, hr] at h
  cases h
  exact .answer s _

/-! ### One access after another -/

/-- A command given again finds its operands as they were, so it leaves the same results (R67, R92). -/
theorem command_repeated {v : Word} {s t : State} (h : command v s = .next t) (r : Response) :
    command v (t.answer r) = .next (t.answer r) := by
  unfold command at h ⊢
  split at h
  case h_1 i _ => cases i <;> cases h <;> rfl
  case h_2 => cases h; rfl

/-- An access served a second time finds what the first left and leaves it, with the same response (R67). -/
theorem serve_repeated {a : Access} {s t : State} (h : serve a s = .next t) :
    ∃ u r, serve a t = .next u ∧ SameRegisters t u ∧ u.answers = r :: r :: s.answers := by
  by_cases herr : a.isBusError
  · cases (serve_of_isBusError herr s).symm.trans h
    exact ⟨_, .err, serve_of_isBusError herr _, .answer _ _, rfl⟩
  obtain ⟨r, rfl, e⟩ | ⟨v, rfl, e⟩ | ⟨v, rfl, e⟩ | ⟨v, rfl, e⟩ | ⟨v, x, y, z, st, rfl, hc, e⟩ :=
    serve_of_not_isBusError herr s <;> cases e.symm.trans h
  · exact ⟨_, .okRead (s.readReg r), serve_readReg r _, .answer _ _, by
      rw [← (SameRegisters.answer s _).readReg_eq r]; rfl⟩
  · exact ⟨_, .okWrite, serve_writeOpa v _, .answer _ _, rfl⟩
  · exact ⟨_, .okWrite, serve_writeOpb v _, .answer _ _, rfl⟩
  · exact ⟨_, .okWrite, serve_writeOpc v _, .answer _ _, rfl⟩
  · exact ⟨_, .okWrite, serve_ctrlWrite (command_repeated hc _), .answer _ _, rfl⟩

/-- Two accesses that arrive one after the other are served in two steps (R73). -/
theorem step_two_accesses {s t u : State} {a b : Access} {rest : List Event} (hp : s.phase = .serving)
    (h : s.port = .access a :: .access b :: rest) (ha : serve a s = .next t) (hb : serve b t = .next u) :
    step s = .next { t with port := .access b :: rest } ∧
      step { t with port := .access b :: rest } = .next { u with port := rest } := by
  obtain ⟨t', r, ht, hphase, -⟩ := serve_next a s
  cases ht.symm.trans ha
  exact ⟨(step_access hp h).trans (serve_port a ha _),
    (step_access (s := { t with port := .access b :: rest }) (hphase.trans hp) rfl).trans (serve_port b hb _)⟩

/-- Settles O7: a step on a read serves it, and what is still to arrive is no register, so it is read as in the state
before. -/
theorem wordReadReturnsRegister : Obligations.WordReadReturnsRegister := by
  intro s off n rest hp h
  have hstep := step_access hp h
  refine ⟨fun hn => ?_, rfl, ?_⟩
  · exact hstep.trans (serve_of_isBusError ((isBusError_read_iff off n).2 hn) _)
  · have wordRead (r : Reg) (ho : off = r.off) (hn : n = 4) :
        step s = .next { s with port := rest, answers := .okRead (s.readReg r) :: s.answers } := by
      subst ho hn
      rw [hstep, serve_readReg, ← ((SameRegisters.refl s).setPort s.port rest).readReg_eq r]
      rfl
    rintro v hn (⟨ho, rfl⟩ | ⟨ho, rfl⟩ | ⟨ho, rfl⟩ | ⟨ho, rfl⟩ | ⟨ho, rfl⟩ | ⟨ho, rfl⟩ | ⟨ho, rfl⟩ | ⟨ho, rfl⟩)
    exacts [wordRead .opa ho hn, wordRead .opb ho hn, wordRead .opc ho hn, wordRead .ctrl ho hn,
      wordRead .status ho hn, wordRead .res0 ho hn, wordRead .res1 ho hn, wordRead .res2 ho hn]

/-- Settles O8: each offset is one of the word writes above or a cause of ERR. -/
theorem wordWriteEffects : Obligations.WordWriteEffects := by
  intro s off n v rest hp h
  have hstep := step_access hp h
  refine ⟨fun hn => ?_, ?_, ?_, ?_, ?_⟩
  · have herr : n ≠ 4 ∨ off.toNat % 4 ≠ 0 ∨ 16 ≤ off.toNat := by
      obtain hn | ha | rfl | rfl | rfl | rfl := hn
      · exact .inl hn
      · exact .inr (.inl ha)
      all_goals exact .inr (.inr (by decide))
    exact hstep.trans (serve_of_isBusError ((isBusError_write_iff off n v).2 herr) _)
  · rintro rfl rfl; exact hstep.trans (serve_writeOpa v _)
  · rintro rfl rfl; exact hstep.trans (serve_writeOpb v _)
  · rintro rfl rfl; exact hstep.trans (serve_writeOpc v _)
  · rintro rfl rfl
    obtain ⟨a, b, c, st, e⟩ := command_completes v { s with port := rest }
    exact ⟨_, e, hstep.trans (serve_ctrlWrite e)⟩

/-- Settles O9: an access with a cause of ERR is a bus error alone, and any other is answered with its kind of OK. -/
theorem everyAccessGetsOneResponse : Obligations.EveryAccessGetsOneResponse := by
  intro s a rest hp h
  have hstep := step_access hp h
  by_cases herr : a.isBusError
  · exact ⟨_, .err, hstep.trans (serve_of_isBusError herr _), rfl, hp, rfl, fun _ _ => .inl rfl, fun _ _ _ => .inl rfl,
      iff_of_true rfl herr, fun _ => ⟨⟨rfl, rfl, rfl, rfl, rfl, rfl, rfl⟩, rfl⟩⟩
  · obtain ⟨t, r, ht, hphase, hport, -, hans⟩ := serve_next a { s with port := rest }
    refine ⟨t, r, hstep.trans ht, hport, hphase.trans hp, hans, ?_⟩
    obtain ⟨n, d, hreq, rfl⟩ | ⟨n, v, hreq, rfl⟩ := serve_response_ok herr ht hans
    · exact ⟨fun _ _ => .inr ⟨d, rfl⟩, by simp [hreq], iff_of_false nofun herr, nofun⟩
    · exact ⟨by simp [hreq], fun _ _ _ => .inr rfl, iff_of_false nofun herr, nofun⟩

/-- Settles O10: the second access is the first served again on the state that the first left. -/
theorem repeatedAccessChangesNothing : Obligations.RepeatedAccessChangesNothing := by
  intro s a rest hp h
  obtain ⟨t, -, ht, -⟩ := serve_next a s
  obtain ⟨u, r, hu, hsame, hans⟩ := serve_repeated ht
  obtain ⟨h1, h2⟩ := step_two_accesses hp h ht hu
  exact ⟨_, _, r, h1, h2, hsame.setPort _ _, hans, fun n hn => (serve_read_sameRegisters hn ht).setPort s.port _⟩

/-- Settles O11: a command does not see what arrives behind it, and the next access is served on the state it left. -/
theorem accessAfterCommandSeesItsResults : Obligations.AccessAfterCommandSeesItsResults := by
  intro s v rest hp
  obtain ⟨x, y, z, st, hc⟩ := command_completes v s
  have hw := serve_ctrlWrite hc
  refine ⟨fun r h => ?_, fun r w hr h => ?_⟩
  · obtain ⟨h1, h2⟩ := step_two_accesses hp h hw (serve_readReg r _)
    refine ⟨_, _, _, command_port v hc rest, h1, h2, ⟨rfl, rfl, rfl, rfl, rfl, rfl, rfl⟩, ?_⟩
    cases r <;> rfl
  · obtain ⟨u, hu, h0, h1, h2, hst, hx⟩ := serve_writeOperand hr w ((s.complete x y z st).answer .okWrite)
    obtain ⟨hfirst, hsecond⟩ := step_two_accesses hp h hw hu
    exact ⟨_, _, _, command_port v hc rest, hfirst, hsecond, h0, h1, h2, hst,
      (((SameRegisters.refl u).setPort rest u.port).readReg_eq r).trans hx⟩

/-- Settles O4: a word that decodes is dispatched to its command, which completes. -/
theorem stepRunsDecodedCommand : Obligations.StepRunsDecodedCommand := by
  intro s v i rest hp h hi
  obtain ⟨x, y, z, st, e⟩ := exec_completes i { s with port := rest }
  have hc : command v { s with port := rest } = exec i { s with port := rest } := by rw [command, hi]
  exact ⟨_, e, (step_access hp h).trans (serve_ctrlWrite (hc.trans e))⟩

/-! ### Host addresses -/

/-- The offset of an address in the window (R61). -/
theorem windowOffset_add (base : Nat) (off : Offset) : windowOffset base (base + off.toNat) = some off := by
  rw [windowOffset_of_mem (by omega) (by have := off.isLt; omega), Nat.add_sub_cancel_left, BitVec.ofNat_toNat,
    BitVec.setWidth_eq]

/-- A host access whose address has an offset arrives at that offset (R61). -/
theorem arriveAt_of_windowOffset {base : Nat} {h : HostAccess} {off : Offset} (ho : windowOffset base h.addr = some off)
    (s : State) : arriveAt base h s = arrive ⟨off, h.req.atPort⟩ s := by
  rw [arriveAt, ho]

/-- A host access outside the window reaches nothing (R61, assumption 7). -/
theorem arriveAt_outside {base : Nat} {h : HostAccess} (ho : h.addr < base ∨ base + 32 ≤ h.addr) (s : State) :
    arriveAt base h s = .refused .outsideWindow := by
  rw [arriveAt, windowOffset_of_not_mem ho]

/-- Settles O13: the window's offsets are the address less the base, and an access to an address with an offset arrives
at it. -/
theorem hostAddressReachesOffset : Obligations.HostAddressReachesOffset := by
  refine ⟨Nat.mul_mod_right 32 Config.fdBaseBlock, fun s h rest hport => ⟨fun off ha => ?_, fun hout => ?_⟩⟩
  · have ho : windowOffset Config.fdBase h.addr = some off := ha ▸ windowOffset_add Config.fdBase off
    exact (step_event hport).trans (arriveAt_of_windowOffset ho _)
  · exact (step_event hport).trans (arriveAt_outside hout _)

/-- Settles O14: the origin is dropped at the port, where a fetch is a read. -/
theorem originAndFetchInvisible : Obligations.OriginAndFetchInvisible :=
  fun _ _ _ _ _ _ => ⟨fun _ => rfl, rfl⟩

/-! ### Steps that are refused -/

/-- An access has no step while none can be served (R231, R232). -/
theorem arrive_refused (a : Access) {s : State} (hp : s.phase ≠ .serving) : ∃ r, arrive a s = .refused r := by
  unfold arrive
  cases h : s.phase with
  | serving => exact absurd h hp
  | inReset => exact ⟨_, rfl⟩
  | unreset => exact ⟨_, rfl⟩

/-- An event the platform may let happen has a next state (R200, R235). -/
theorem handle_of_permitted {e : Event} {s : State} (h : permitted s.phase e) : ∃ t, handle e s = .next t := by
  have served (hp : s.phase = .serving) (he : servedAccess e) : ∃ t, handle e s = .next t := by
    obtain ⟨t, -, ht, -⟩ := handle_servedAccess hp he
    exact ⟨t, ht⟩
  cases e with
  | access a => exact served h trivial
  | host ha => exact served h.1 h.2
  | resetDuringCommand v => exact ⟨s.assertResetDuringCommand, by rw [handle, cutCommand, show s.phase = .serving from h]⟩
  | resetAsserted => exact ⟨_, rfl⟩
  | resetReleased => exact ⟨_, rfl⟩
  | powerApplied => exact ⟨_, rfl⟩

/-- An event the platform must not let happen is refused (R61, R231, R232; assumptions 3 to 5 and 7). -/
theorem handle_of_not_permitted {e : Event} {s : State} (h : ¬ permitted s.phase e) : ∃ r, handle e s = .refused r := by
  cases e with
  | access a => exact arrive_refused a h
  | host ha =>
    by_cases hin : Config.fdBase ≤ ha.addr ∧ ha.addr < Config.fdBase + 32
    · obtain ⟨r, hr⟩ := arrive_refused ⟨_, ha.req.atPort⟩ fun hp => h ⟨hp, hin⟩
      exact ⟨r, (arriveAt_of_windowOffset (windowOffset_of_mem hin.1 hin.2) s).trans hr⟩
    · exact ⟨_, arriveAt_outside (by omega) s⟩
  | resetDuringCommand v =>
    simp only [handle, cutCommand]
    cases hp : s.phase with
    | serving => exact absurd hp h
    | inReset => exact ⟨_, rfl⟩
    | unreset => exact ⟨_, rfl⟩
  | resetAsserted => exact absurd trivial h
  | resetReleased => exact absurd trivial h
  | powerApplied => exact absurd trivial h

/-- Settles O15: the step handles the first event, which has a next state when it is permitted and is refused when it
is not. -/
theorem stepStopsOnlyOnPlatformBreach : Obligations.StepStopsOnlyOnPlatformBreach := by
  intro s
  cases hport : s.port with
  | nil => simp [step_idle hport]
  | cons e rest =>
    rw [step_event hport]
    by_cases h : permitted s.phase e
    · obtain ⟨t, ht⟩ := handle_of_permitted (s := { s with port := rest }) h
      simp [ht, h]
    · obtain ⟨r, hr⟩ := handle_of_not_permitted (s := { s with port := rest }) h
      simp [hr, h]

/-! ### Several DCF32s on a platform -/

/-- The first window holds the address: its DCF32 serves the access (R61, R212). -/
theorem platformAccess_cons_of_mem {h : HostAccess} {p : Placed} {t : State} (hin : p.base ≤ h.addr ∧ h.addr < p.base + 32)
    (ht : arriveAt p.base h p.state = .next t) (ps : List Placed) :
    platformAccess h (p :: ps) = .next ({ p with state := t } :: ps) := by
  rw [platformAccess, windowOffset_of_mem hin.1 hin.2, ht]

/-- It does not: the access goes to the others (R61, R212). -/
theorem platformAccess_cons_of_not_mem {h : HostAccess} {p : Placed} {ps qs : List Placed}
    (hout : h.addr < p.base ∨ p.base + 32 ≤ h.addr) (hps : platformAccess h ps = .next qs) :
    platformAccess h (p :: ps) = .next (p :: qs) := by
  rw [platformAccess, windowOffset_of_not_mem hout, hps]

/-- What an access served on a platform can be: the first DCF32's, or that of one of the others. -/
theorem platformAccess_cons_cases {h : HostAccess} {p : Placed} {ps qs : List Placed}
    (hq : platformAccess h (p :: ps) = .next qs) :
    ((p.base ≤ h.addr ∧ h.addr < p.base + 32) ∧ ∃ t, arriveAt p.base h p.state = .next t ∧
        qs = { p with state := t } :: ps) ∨
      ∃ rs, platformAccess h ps = .next rs ∧ qs = p :: rs := by
  rw [platformAccess] at hq
  split at hq
  case h_1 o ho =>
    cases ha : arriveAt p.base h p.state <;> rw [ha] at hq <;> cases hq
    exact .inl ⟨(windowOffset_isSome_iff _ _).1 ⟨o, ho⟩, _, rfl, rfl⟩
  case h_2 =>
    cases hps : platformAccess h ps <;> rw [hps] at hq <;> cases hq
    exact .inr ⟨_, rfl, rfl⟩

/-- An access served on a platform replaces one DCF32's state, that of one whose window holds the address (R212). -/
theorem platformAccess_set {h : HostAccess} {ps qs : List Placed} (hq : platformAccess h ps = .next qs) :
    ∃ i p t, ps[i]? = some p ∧ p.base ≤ h.addr ∧ h.addr < p.base + 32 ∧
      arriveAt p.base h p.state = .next t ∧ qs = ps.set i { p with state := t } := by
  induction ps generalizing qs with
  | nil => cases hq
  | cons p ps ih =>
    obtain ⟨⟨hlo, hhi⟩, t, ht, rfl⟩ | ⟨rs, hrs, rfl⟩ := platformAccess_cons_cases hq
    · exact ⟨0, p, t, rfl, hlo, hhi, ht, rfl⟩
    · obtain ⟨i, q, t, hi, hlo, hhi, ht, rfl⟩ := ih hrs
      exact ⟨i + 1, q, t, hi, hlo, hhi, ht, rfl⟩

/-- A DCF32 that serves accesses serves a host's access in its window (R61). -/
theorem arriveAt_of_mem {h : HostAccess} {base : Nat} {s : State} (hin : base ≤ h.addr ∧ h.addr < base + 32)
    (hp : s.phase = .serving) : ∃ t, arriveAt base h s = .next t := by
  obtain ⟨t, -, ht, -⟩ := serve_next ⟨_, h.req.atPort⟩ s
  exact ⟨t, by rw [arriveAt_of_windowOffset (windowOffset_of_mem hin.1 hin.2), arrive, hp]; exact ht⟩

/-- With all of them serving, an access in a window of the platform is served (R61, R212). -/
theorem platformAccess_of_mem {h : HostAccess} {ps : List Placed} (hserving : ∀ p ∈ ps, p.state.phase = .serving)
    (hin : ∃ p ∈ ps, p.base ≤ h.addr ∧ h.addr < p.base + 32) : ∃ qs, platformAccess h ps = .next qs := by
  induction ps with
  | nil => simp at hin
  | cons p ps ih =>
    rw [List.forall_mem_cons] at hserving
    rw [List.exists_mem_cons_iff] at hin
    by_cases hp : p.base ≤ h.addr ∧ h.addr < p.base + 32
    · obtain ⟨t, ht⟩ := arriveAt_of_mem hp hserving.1
      exact ⟨_, platformAccess_cons_of_mem hp ht ps⟩
    · obtain ⟨qs, hqs⟩ := ih hserving.2 (hin.resolve_left hp)
      exact ⟨_, platformAccess_cons_of_not_mem (by omega) hqs⟩

/-- Settles O17: one element of the list is replaced, by induction on the list. -/
theorem platformAccessTouchesOneInstance : Obligations.PlatformAccessTouchesOneInstance :=
  fun _ _ => ⟨fun _ => platformAccess_set, platformAccess_of_mem⟩

end Sys2Proof.Machine

/-! PROOFS. A host program among the accesses of others: when it runs to its end, and the port order that its run follows
(spec R73, R98, R101). -/

namespace Sys2Proof.Machine

/-! ### Runs to the end -/

/-- The turns of a first line and of those after it. -/
theorem sum_take_turns (turns : List Nat) (n : Nat) :
    (turns.take (n + 1)).sum = turns.headD 0 + (turns.tail.take n).sum := by
  cases turns <;> simp

/-- Everything one line can do when served accesses of others come before it (R73, R98). -/
theorem performTurn_spec {k : Nat} {b : Basic} {h : HostState} {ns : List Name} (hp : h.machine.phase = .serving)
    (he : ∀ e ∈ h.machine.port.take k, servedAccess e) (hn : ∀ n, n ∈ ns ↔ n ∈ boundNames h.names) :
    (b.usable ns = true → ∃ h', performTurn k b h = .next h' ∧ h'.machine.phase = .serving ∧
      h'.machine.port = h.machine.port.drop k ∧
      h'.machine.answers.length = h.machine.answers.length + 1 + min k h.machine.port.length ∧
      ∀ n, n ∈ b.boundAfter ns ↔ n ∈ boundNames h'.names) ∧
    (b.usable ns = false → performTurn k b h = .fault .unboundName) := by
  obtain ⟨t, ht, htp, htport, htans⟩ := othersFirst_next k hp he
  have hturn : performTurn k b h = performBasic b ⟨t, h.names⟩ := by rw [performTurn, ht]
  obtain ⟨hok, hbad⟩ := performBasic_spec b ⟨t, h.names⟩ ns htp hn
  refine ⟨fun hu => ?_, fun hu => hturn.trans (hbad hu)⟩
  obtain ⟨h', hb, hp', hport', hans', hn'⟩ := hok hu
  exact ⟨h', hturn.trans hb, hp', hport'.trans htport, by rw [hans', htans]; omega, hn'⟩

/-- Lines among served accesses of others run to their end when they use no unbound name, and else end in the fault (R98,
R101). -/
theorem performBasics_spec {turns : List Nat} {bs : List Basic} {h : HostState} {ns : List Name} {k : Nat}
    (hk : k = (turns.take bs.length).sum) (hp : h.machine.phase = .serving)
    (he : ∀ e ∈ h.machine.port.take k, servedAccess e) (hn : ∀ n, n ∈ ns ↔ n ∈ boundNames h.names) :
    (basicsWellFormed ns bs = true → ∃ h', performBasics turns bs h = .next h' ∧ h'.machine.phase = .serving ∧
      h'.machine.port = h.machine.port.drop k ∧
      h'.machine.answers.length = h.machine.answers.length + bs.length + min k h.machine.port.length) ∧
    (basicsWellFormed ns bs = false → performBasics turns bs h = .fault .unboundName) := by
  induction bs generalizing turns h ns k with
  | nil =>
    obtain rfl : k = 0 := by simpa using hk
    exact ⟨fun _ => ⟨h, performBasics_nil turns h, hp, rfl, by simp⟩, nofun⟩
  | cons b bs ih =>
    rw [List.length_cons, sum_take_turns] at hk
    generalize hj : turns.headD 0 = j at hk
    generalize hm : (turns.tail.take bs.length).sum = m at hk
    subst hk
    rw [List.take_add] at he
    obtain ⟨hok, hbad⟩ := performTurn_spec (b := b) hp (fun e h => he e (List.mem_append_left _ h)) hn
    simp only [performBasics_cons, hj, basicsWellFormed]
    cases hu : b.usable ns with
    | false => exact ⟨nofun, fun _ => by rw [hbad hu]⟩
    | true =>
      obtain ⟨h', hturn, hp', hport', hans', hn'⟩ := hok hu
      obtain ⟨hall, hfault⟩ := ih hm.symm hp' (fun e h => he e (List.mem_append_right _ (hport' ▸ h))) hn'
      rw [hturn, Bool.true_and]
      refine ⟨fun hw => ?_, hfault⟩
      obtain ⟨u, hrun, hpu, hportu, hansu⟩ := hall hw
      refine ⟨u, hrun, hpu, by rw [hportu, hport', List.drop_drop], ?_⟩
      rw [hansu, hans', hport', List.length_drop, List.length_cons]
      omega

/-- Settles O51: no name is bound before the first line, and the rest is the run of the program's lines. -/
theorem wellFormedProgramRunsToEnd : Obligations.WellFormedProgramRunsToEnd := by
  rintro turns ls s n k hp rfl hk he
  exact performBasics_spec (h := ⟨s, []⟩) (ns := []) hk hp he fun _ => Iff.rfl

/-! ### One port order -/

/-- Handling an event takes nothing else off the port (R73). -/
theorem handle_next_port {e : Event} {s t : State} (h : handle e s = .next t) : t.port = s.port := by
  have same : Host.Outcome.next t = .next { t with port := s.port } := h.symm.trans (handle_port h s.port)
  injection same with ht
  rw [ht]

/-- A step on an event depends on nothing that stands behind it (R73). -/
theorem step_port_cons {e : Event} {s t : State} (h : handle e s = .next t) (q : List Event) :
    step { s with port := e :: q } = .next { t with port := q } :=
  (step_event (s := { s with port := e :: q }) rfl).trans (handle_port h q)

/-- A run of DCF32 whose first step has a next state goes on from it. -/
theorem run_succ_of_step {s t : State} (h : step s = .next t) (k : Nat) :
    Host.Core.run core (k + 1) s = Host.Core.run core k t := by
  have general {M : Host.Core} {s t : M.State} (h : M.step s = .next t) : M.run (k + 1) s = M.run k t := by
    rw [Host.Core.run, h]
  exact general (M := core) (s := s) (t := t) h

/-- A run that reaches a state goes on from it. -/
theorem run_add_of_run {M : Host.Core} {j : Nat} {s t : M.State} (h : M.run j s = .next t) (k : Nat) :
    M.run (j + k) s = M.run k t := by
  induction j generalizing s with
  | zero => cases h; rw [Nat.zero_add]
  | succ j ih =>
    rw [Nat.succ_add]
    rw [Host.Core.run] at h ⊢
    cases hs : M.step s with
    | next u => rw [hs] at h; exact ih h
    | fault f => rw [hs] at h; cases h
    | refused r => rw [hs] at h; cases h

/-- Events of others before a line are handled one by one. -/
theorem othersFirst_succ_next {k : Nat} {s t : State} (h : othersFirst (k + 1) s = .next t) :
    ∃ u, step s = .next u ∧ othersFirst k u = .next t := by
  rw [othersFirst] at h
  cases hs : step s with
  | next u => rw [hs] at h; exact ⟨u, rfl, h⟩
  | fault f => rw [hs] at h; cases h
  | refused r => rw [hs] at h; cases h

/-- A performed line's turn is the events of others and then the line (R73). -/
theorem performTurn_next {k : Nat} {b : Basic} {h h' : HostState} (hb : performTurn k b h = .next h') :
    ∃ t, othersFirst k h.machine = .next t ∧ performBasic b { h with machine := t } = .next h' := by
  rw [performTurn] at hb
  cases ho : othersFirst k h.machine with
  | next t => rw [ho] at hb; exact ⟨t, rfl, hb⟩
  | fault f => rw [ho] at hb; cases hb
  | refused r => rw [ho] at hb; cases hb

/-- Performed lines are the first line's turn and then the lines after it (R98). -/
theorem performBasics_cons_next {turns : List Nat} {b : Basic} {bs : List Basic} {h h' : HostState}
    (hb : performBasics turns (b :: bs) h = .next h') :
    ∃ u, performTurn (turns.headD 0) b h = .next u ∧ performBasics turns.tail bs u = .next h' := by
  rw [performBasics_cons] at hb
  cases ht : performTurn (turns.headD 0) b h with
  | next u => rw [ht] at hb; exact ⟨u, rfl, hb⟩
  | fault f => rw [ht] at hb; cases hb
  | refused r => rw [ht] at hb; cases hb

/-- A performed line has an access, and is one step on it (R98). -/
theorem performBasic_next {b : Basic} {h h' : HostState} (hb : performBasic b h = .next h') :
    ∃ a, Basic.access h.names b = some a ∧ handle (.access a) h.machine = .next h'.machine := by
  rw [performBasic] at hb
  cases ha : b.access h.names with
  | none => rw [ha] at hb; cases hb
  | some a =>
    simp only [ha, step_event (State.issue_port h.machine a)] at hb
    cases ht : handle (.access a) h.machine with
    | next t => simp only [State.issue, ht] at hb; cases hb; exact ⟨a, rfl, ht⟩
    | fault f => simp only [State.issue, ht] at hb; cases hb
    | refused r => simp only [State.issue, ht] at hb; cases hb

/-- The events of others before a line are a run of DCF32 over them, whatever stands behind them; past the end of what is to
arrive there is none (R73). -/
theorem run_of_othersFirst {k : Nat} {s t : State} (h : othersFirst k s = .next t) :
    t.port = s.port.drop k ∧ ∀ q, Host.Core.run core (min k s.port.length) { s with port := s.port.take k ++ q } =
      .next { t with port := q } := by
  induction k generalizing s with
  | zero =>
    cases h
    exact ⟨rfl, fun q => by rw [Nat.zero_min]; rfl⟩
  | succ k ih =>
    obtain ⟨u, hu, hk⟩ := othersFirst_succ_next h
    obtain ⟨ht, hrun⟩ := ih hk
    cases hport : s.port with
    | nil =>
      cases (step_idle hport).symm.trans hu
      simpa [hport] using And.intro ht hrun
    | cons e rest =>
      rw [step_event hport] at hu
      rw [show u.port = rest from handle_next_port hu] at ht hrun
      refine ⟨ht, fun q => ?_⟩
      rw [List.length_cons, Nat.succ_min_succ]
      exact (run_succ_of_step (step_port_cons hu _) _).trans (hrun q)

/-- A performed turn is a run over the events of others and the line's access, whatever stands behind them (R73, R98). -/
theorem run_of_performTurn {k : Nat} {b : Basic} {h h' : HostState} (hb : performTurn k b h = .next h') :
    h'.machine.port = h.machine.port.drop k ∧ ∃ a, Basic.access h.names b = some a ∧
      ∀ q, Host.Core.run core (min k h.machine.port.length + 1)
        { h.machine with port := h.machine.port.take k ++ .access a :: q } = .next { h'.machine with port := q } := by
  obtain ⟨t, ho, hb⟩ := performTurn_next hb
  obtain ⟨htport, hrun⟩ := run_of_othersFirst ho
  obtain ⟨a, ha, ht⟩ := performBasic_next hb
  exact ⟨(handle_next_port ht).trans htport, a, ha, fun q => (run_add_of_run (M := core) (hrun _) 1).trans
    (run_succ_of_step (step_port_cons ht q) 0)⟩

/-- No line's access, no change of the port order. -/
theorem portOrder_nil (turns : List Nat) (p : List Event) : portOrder turns [] p = p := by cases turns <;> rfl

/-- The port order of a first access and those after it (R73). -/
theorem portOrder_cons (turns : List Nat) (a : Access) (as : List Access) (p : List Event) :
    portOrder turns (a :: as) p =
      p.take (turns.headD 0) ++ .access a :: portOrder turns.tail as (p.drop (turns.headD 0)) := by
  cases turns <;> rfl

/-- Performed lines are a run over their port order, one step an access and one an event of others (R73, R98, R101). -/
theorem run_of_performBasics {turns : List Nat} {bs : List Basic} {h h' : HostState}
    (hb : performBasics turns bs h = .next h') :
    h'.machine.port.length ≤ h.machine.port.length ∧
    ∃ as : List Access, List.Forall₂ (fun b a => ∃ names, Basic.access names b = some a) bs as ∧
      Host.Core.run core (bs.length + (h.machine.port.length - h'.machine.port.length))
        { h.machine with port := portOrder turns as h.machine.port } = .next h'.machine := by
  induction bs generalizing turns h with
  | nil =>
    rw [performBasics_nil] at hb
    cases hb
    refine ⟨le_rfl, [], .nil, ?_⟩
    rw [Nat.sub_self, portOrder_nil]
    rfl
  | cons b bs ih =>
    obtain ⟨u, hturn, hrest⟩ := performBasics_cons_next hb
    obtain ⟨huport, a, ha, hrun⟩ := run_of_performTurn hturn
    obtain ⟨hle, as, has, hruns⟩ := ih hrest
    have hlen : u.machine.port.length = h.machine.port.length - turns.headD 0 := by rw [huport, List.length_drop]
    refine ⟨by omega, a :: as, .cons ⟨_, ha⟩ has, ?_⟩
    have steps : (b :: bs).length + (h.machine.port.length - h'.machine.port.length) =
        (min (turns.headD 0) h.machine.port.length + 1) +
          (bs.length + (u.machine.port.length - h'.machine.port.length)) := by
      rw [List.length_cons]; omega
    rw [steps, portOrder_cons, ← huport]
    exact (run_add_of_run (M := core) (hrun _) _).trans hruns

/-- Every interleaving of accesses with pending events is a port order, each turn being how many events stand before its
access (R73). -/
theorem portOrder_of_interleaving {between : List (List Event)} {as : List Access} (rest : List Event)
    (h : between.length = as.length) :
    portOrder (between.map List.length) as (between.flatten ++ rest) =
      (List.zipWith (fun es a => es ++ [.access a]) between as).flatten ++ rest := by
  induction between generalizing as with
  | nil =>
    obtain rfl := List.length_eq_zero_iff.1 h.symm
    rfl
  | cons es between ih =>
    cases as with
    | nil => cases h
    | cons a as =>
      have hih := ih (Nat.succ.inj h)
      simp [portOrder_cons, hih]

/-- Settles O52: the run of lines, each a run over its turn; and every interleaving, by induction on the accesses. -/
theorem programRunFollowsOnePortOrder : Obligations.ProgramRunFollowsOnePortOrder :=
  ⟨fun _ _ _ _ h => (run_of_performBasics h).2, fun _ _ rest h => portOrder_of_interleaving rest h⟩

end Sys2Proof.Machine

/-! PROOFS. The command words: the opcode map both ways, what a rejected word is rejected by, the dispatch of a word and what
a command reads, and the expansions of the pseudo-instructions (spec R90 to R99). -/

namespace Sys2Proof

/-! ### The opcode map -/

/-- A command's word decodes to the command (R93). -/
@[simp] theorem decode_encode (i : Instr) : decode (encode i) = .ok i := by cases i <;> rfl

/-- No command's word has a bit above OP (R91, R93). -/
@[simp] theorem rsvdField_encode (i : Instr) : rsvdField (encode i) = 0#30 := by cases i <;> rfl

/-- The words of commands are 0, 1 and 2 (R93). -/
theorem ne_encode_iff (v : Word) :
    (∀ i, v ≠ encode i) ↔ v ≠ 0x00000000#32 ∧ v ≠ 0x00000001#32 ∧ v ≠ 0x00000002#32 := by
  constructor
  · exact fun h => ⟨h .extract, h .decode, h .recompose⟩
  · rintro ⟨h0, h1, h2⟩ (_ | _ | _)
    exacts [h0, h1, h2]

/-- Every other word is rejected, and RSVD says by which name (R96). -/
theorem decode_of_ne_encode {v : Word} (h : ∀ i, v ≠ encode i) :
    decode v = .error (if rsvdField v = 0#30 then .illegalOp else .reservedBits (rsvdField v)) := by
  obtain ⟨h0, h1, h2⟩ := (ne_encode_iff v).1 h
  simp only [decode, h0, h1, h2, if_false]
  split <;> rfl

/-- A word with a bit above OP is rejected with those bits (R96). -/
theorem decode_of_rsvdField_ne_zero {v : Word} (h : rsvdField v ≠ 0#30) :
    decode v = .error (.reservedBits (rsvdField v)) := by
  have hne : ∀ i, v ≠ encode i := by
    rintro i rfl
    exact h (rsvdField_encode i)
  rw [decode_of_ne_encode hne, if_neg h]

/-- A word decodes to a command exactly when it is the command's word (R93). -/
theorem decode_eq_ok_iff (v : Word) (i : Instr) : decode v = .ok i ↔ v = encode i := by
  constructor
  · intro h
    by_cases hv : ∃ j, v = encode j
    · obtain ⟨j, rfl⟩ := hv
      cases (decode_encode j).symm.trans h
      rfl
    · cases (decode_of_ne_encode (not_exists.1 hv)).symm.trans h
  · rintro rfl
    exact decode_encode i

/-- A word is rejected exactly when it is no command's word (R96). -/
theorem decode_eq_error_iff (v : Word) : (∃ r, decode v = .error r) ↔ ∀ i, v ≠ encode i := by
  constructor
  · rintro ⟨r, h⟩ i rfl
    cases (decode_encode i).symm.trans h
  · exact fun h => ⟨_, decode_of_ne_encode h⟩

/-- A table row's bits are read as a command exactly when the word they make decodes to it. -/
theorem decodeTableWord_eq_some_iff (nbits w : Nat) (i : Instr) :
    decodeTableWord nbits w = some i ↔ decode (tableWord nbits w) = .ok i := by
  cases h : decode (tableWord nbits w) <;> simp [decodeTableWord, h]

/-- Settles O2: a command's word decodes to it, and a word that is none is rejected. -/
theorem decodeAgreesWithEncode : Obligations.DecodeAgreesWithEncode :=
  ⟨⟨rfl, rfl, rfl⟩, decode_eq_ok_iff, fun v => (decode_eq_error_iff v).trans (ne_encode_iff v)⟩

/-- Settles O1: three of the words are the commands', and of the others the last two have a bit above OP. -/
theorem commandWordsDecode : Obligations.CommandWordsDecode := by
  refine ⟨decode_encode .extract, decode_encode .decode, decode_encode .recompose, ?_, ?_, ?_⟩
  · exact decode_of_ne_encode ((ne_encode_iff 3#32).2 (by decide))
  · exact decode_of_rsvdField_ne_zero (by decide)
  · exact decode_of_rsvdField_ne_zero (by decide)

end Sys2Proof

namespace Sys2Proof.Machine

/-! ### The dispatch of a word -/

/-- A command's word runs the command (R92). -/
theorem command_encode (i : Instr) (s : State) : command (encode i) s = exec i s := by
  rw [command, decode_encode]

/-- A word that is no command's has the illegal-command outcome (R92, R203). -/
theorem command_of_ne_encode {v : Word} (h : ∀ i, v ≠ encode i) (s : State) :
    command v s = .next (s.illegalCommand v) :=
  command_of_illegal (decode_of_ne_encode h) s

/-- Two states hold the same operands: OPA, OPB and OPC, which is all of them that a command reads (R33 to R35, R92). -/
structure SameOperands (s t : State) : Prop where
  opa : s.opa = t.opa
  opb : s.opb = t.opb
  opc : s.opc = t.opc

/-- The same operands give the same results and STATUS, whatever else the two states hold (R92). -/
theorem exec_of_sameOperands (i : Instr) {s s' : State} (h : SameOperands s s') :
    ∃ r0 r1 r2 st, exec i s = .next (s.complete r0 r1 r2 st) ∧ exec i s' = .next (s'.complete r0 r1 r2 st) := by
  obtain ⟨ha, hb, hc⟩ := h
  cases i with
  | extract => exact ⟨_, _, _, _, rfl, by simp only [exec, execExtract, State.operandA, ha]⟩
  | decode =>
    exact ⟨_, _, _, _, rfl, by
      simp only [exec, execDecode, State.operandA, State.operandB, State.operandC, ha, hb, hc]⟩
  | recompose =>
    exact ⟨_, _, _, _, rfl, by
      simp only [exec, execRecompose, State.operandA, State.operandB, State.operandC, ha, hb, hc]⟩

/-- The same operands and the same word give the same results and STATUS, an illegal word too (R92, R203). -/
theorem command_of_sameOperands (v : Word) {s s' : State} (h : SameOperands s s') :
    ∃ r0 r1 r2 st, command v s = .next (s.complete r0 r1 r2 st) ∧
      command v s' = .next (s'.complete r0 r1 r2 st) := by
  by_cases hv : ∃ i, v = encode i
  · obtain ⟨i, rfl⟩ := hv
    simpa only [command_encode] using exec_of_sameOperands i h
  · have hne := not_exists.1 hv
    exact ⟨_, _, _, _, command_of_ne_encode hne s, command_of_ne_encode hne s'⟩

/-- Settles O6: each word is a command's or illegal, and either way the results come from the operands and the word. -/
theorem commandDispatchReadsOperandsAlone : Obligations.CommandDispatchReadsOperandsAlone := by
  refine ⟨fun s => ⟨command_encode .extract s, command_encode .decode s, command_encode .recompose s⟩, ?_, ?_⟩
  · exact fun v s h0 h1 h2 => command_of_ne_encode ((ne_encode_iff v).2 ⟨h0, h1, h2⟩) s
  · exact fun v s s' ha hb hc => command_of_sameOperands v ⟨ha, hb, hc⟩

/-- Settles O5: the word placed is a CTRL write at the head of the port of a state that serves accesses. -/
theorem fetchWordRunsDecodedCommand : Obligations.FetchWordRunsDecodedCommand := fun s nbits w i h =>
  stepRunsDecodedCommand (s.withFetchWord nbits w) _ i s.port rfl rfl ((decodeTableWord_eq_some_iff nbits w i).1 h)

/-! ### The expansions of a program's lines -/

/-- The lines after a first part are expanded with their `deconstruct` lines counted from those of that part (R99). -/
theorem expandFrom_append (k : Nat) (ls ms : List Line) :
    expandFrom k (ls ++ ms) = expandFrom k ls ++ expandFrom (k + (ls.map Line.deconstructs).sum) ms := by
  induction ls generalizing k with
  | nil => rfl
  | cons l ls ih => simp [expandFrom, ih, Nat.add_assoc]

/-- A `deconstruct` line uses its number up: the lines after it are expanded from the next one on (R99). -/
theorem expandFrom_deconstruct_cons (k : Nat) (x : Value) (r : Name) (ls : List Line) :
    expandFrom k (.pseudo (.deconstruct x r) :: ls) = (Pseudo.deconstruct x r).expand k ++ expandFrom (k + 1) ls := rfl

/-- Settles O50: the numbers of two `deconstruct` lines are how many such lines stand before each, and the second has the
first before it. -/
theorem pseudoExpansions : Obligations.PseudoExpansions := by
  refine ⟨fun k k' i j text => ⟨nofun, nofun, nofun, fun hk => ⟨?_, ?_⟩⟩, ?_, ?_⟩
  · exact fun h => hk (Name.t.inj h).1
  · exact fun h => hk (Name.u.inj h).1
  · exact fun k x s e f a b c n n0 n1 n2 => ⟨rfl, rfl, rfl, rfl, rfl, rfl⟩
  · intro pre mid post x x' r r'
    refine ⟨(pre.map Line.deconstructs).sum,
      (pre.map Line.deconstructs).sum + 1 + (mid.map Line.deconstructs).sum, by omega, ?_⟩
    simp only [expandProgram, List.append_assoc, List.cons_append, expandFrom_append, expandFrom_deconstruct_cons,
      Nat.zero_add]

end Sys2Proof.Machine

/-! PROOFS. EXTRACT: the three fields as slices of the pattern, the pattern they give back, and the operands of DECODE they
are (spec R110 to R115, R139). -/

namespace Sys2Proof.Machine

/-! ### The fields as slices of the pattern -/

/-- A slice of a word, widened to a word, as a number. -/
theorem toNat_setWidth_extractLsb' (x : Word) (start : Nat) {len : Nat} (h : len ≤ 32) :
    ((x.extractLsb' start len).setWidth 32).toNat = x.toNat / 2 ^ start % 2 ^ len := by
  rw [BitVec.toNat_setWidth_of_le h, BitVec.extractLsb'_toNat, Nat.shiftRight_eq_div_pow]

/-- The sign field is bit 31 (R10). -/
theorem signField_eq_slice (x : Word) : signField x = (x.extractLsb' 31 1).setWidth 32 := by
  have := x.isLt
  apply BitVec.eq_of_toNat_eq
  rw [signField_toNat, toNat_setWidth_extractLsb' x 31 (by decide)]
  omega

/-- The exponent field is bits 30:23 (R10). -/
theorem expField_eq_slice (x : Word) : expField x = (x.extractLsb' 23 8).setWidth 32 := by
  apply BitVec.eq_of_toNat_eq
  rw [expField_toNat, toNat_setWidth_extractLsb' x 23 (by decide)]
  rfl

/-- The fraction field is bits 22:0 (R10). -/
theorem fracField_eq_slice (x : Word) : fracField x = (x.extractLsb' 0 23).setWidth 32 := by
  apply BitVec.eq_of_toNat_eq
  rw [fracField_toNat, toNat_setWidth_extractLsb' x 0 (by decide), Nat.pow_zero, Nat.div_one]

/-! ### The pattern from its fields -/

/-- The three fields, each shifted to its place, are the pattern (R10, R112). -/
theorem fields_shifted (x : Word) : (signField x <<< 31) ||| (expField x <<< 23) ||| fracField x = x := by
  simpa [packFields, signField_shift] using packFields_fields x

/-! ### DECODE's domain -/

/-- DECODE's domain is the ranges of EXTRACT's results (R113, R139). -/
theorem outOfDomain_eq_false_iff (a b c : Word) : outOfDomain a b c = false ↔ ExtractResults a b c := by
  rw [outOfDomain_eq, decide_eq_false_iff_not]
  constructor
  · intro h
    constructor <;> omega
  · rintro ⟨ha, hb, hc⟩
    omega

/-- DECODE of operands in those ranges completes with DOM 0 (R113, R139). -/
theorem exec_decode_of_extractResults {s : State} (h : ExtractResults s.opa s.opb s.opc) :
    ∃ t, exec .decode s = .next t ∧ t.status.dom = false := by
  obtain ⟨t, ht, hdom⟩ := exec_dom .decode s
  exact ⟨t, ht, by rw [hdom, (outOfDomain_eq_false_iff _ _ _).2 h, Bool.and_false]⟩

/-- Any values in those ranges are the fields of the pattern that packs them (R113). -/
theorem exists_fields_of_extractResults {a b c : Word} (h : ExtractResults a b c) :
    ∃ x, signField x = a ∧ expField x = b ∧ fracField x = c := by
  obtain ⟨ha, hb, hc⟩ := h
  have he : b.toNat < 256 := by omega
  have hf : c.toNat < 2 ^ 23 := by omega
  refine ⟨packFields (decide (a = 1#32)) b.toNat c.toNat, ?_, BitVec.eq_of_toNat_eq (expField_packFields _ he hf),
    BitVec.eq_of_toNat_eq (fracField_packFields _ he hf)⟩
  rw [signField_word, isNeg_packFields _ he hf]
  split
  case isTrue h1 => exact (of_decide_eq_true h1).symm
  case isFalse h1 =>
    rw [decide_eq_true_eq] at h1
    bv_omega

/-- A word below 2^k has no bit from bit k on. -/
theorem extractLsb'_eq_zero_of_toNat_lt {x : Word} {k : Nat} (h : x.toNat < 2 ^ k) (len : Nat) :
    x.extractLsb' k len = 0#len := by
  apply BitVec.eq_of_toNat_eq
  rw [BitVec.extractLsb'_toNat, Nat.shiftRight_eq_div_pow, Nat.div_eq_of_lt h, Nat.zero_mod, BitVec.toNat_zero]

/-! ### EXTRACT -/

/-- EXTRACT of every pattern completes with the three fields of OPA (R110, R111). -/
theorem exec_extract (s : State) : exec .extract s =
    .next (s.complete (signField s.opa) (expField s.opa) (fracField s.opa) (Status.legal 0#2 false)) := rfl

/-- Settles O25: the fields are written by shifts and masks, and each is its slice; the example is one pattern. -/
theorem extractResult : Obligations.ExtractResult := by
  refine ⟨exec_extract, fun s => ?_, fun s t hopa h => ?_⟩
  · rw [exec_extract, signField_eq_slice, expField_eq_slice, fracField_eq_slice]
    rfl
  · cases (exec_extract s).symm.trans h
    have fields : signField 0x4229AE14#32 = 0x00000000#32 ∧ expField 0x4229AE14#32 = 0x00000084#32 ∧
        fracField 0x4229AE14#32 = 0x0029AE14#32 := by decide
    rw [hopa]
    exact fields

/-- Settles O26: the results are the fields, which at their places are the pattern. -/
theorem extractRoundTrip : Obligations.ExtractRoundTrip :=
  fun s => ⟨_, exec_extract s, fields_shifted s.opa⟩

/-- Settles O27: the fields are in their ranges, those ranges are DECODE's domain, and packing reaches all of them. -/
theorem extractResultsAreDecodeDomain : Obligations.ExtractResultsAreDecodeDomain := by
  refine ⟨fun s => ?_, fun a b c ha hb hc => ?_⟩
  · have ranges := extractResults s.opa
    have sign : signField s.opa = 0#32 ∨ signField s.opa = 1#32 := by
      rw [signField_word]
      cases isNeg s.opa <;> simp
    refine ⟨_, exec_extract s, sign, ranges.exponent, ranges.fraction, ?_, ?_, ?_,
      exec_decode_of_extractResults ranges⟩
    · exact extractLsb'_eq_zero_of_toNat_lt (k := 1) (Nat.lt_succ_of_le ranges.sign) 31
    · exact extractLsb'_eq_zero_of_toNat_lt (k := 8) (expField_lt s.opa) 24
    · exact extractLsb'_eq_zero_of_toNat_lt (fracField_lt s.opa) 9
  · obtain ⟨x, hsign, hexp, hfrac⟩ := exists_fields_of_extractResults ⟨ha, hb, hc⟩
    exact ⟨x, fun s hx => ⟨_, exec_extract s, by simp [hx, hsign, hexp, hfrac]⟩⟩

/-- Settles O28: the results are fields of OPA, and the STATUS is the same for every EXTRACT. -/
theorem extractDependsOnOpaAlone : Obligations.ExtractDependsOnOpaAlone :=
  fun s s' h => ⟨_, _, exec_extract s, exec_extract s', by simp [h]⟩

end Sys2Proof.Machine

/-! PROOFS. DECODE: the sign, exponent and mantissa values in closed form and as exact numbers, the accumulator by the
spec's rational formulas and in any order, and what RECOMPOSE makes of decoded fields (spec R130 to R142). -/

namespace Sys2Proof.Machine

/-! ### The two commands as equations -/

/-- DECODE of any operands completes with the three decoded values and the domain test in DOM (R130, R139). -/
theorem exec_decode (s : State) : exec .decode s =
    .next (s.complete (signDecode s.opa) (expDecode s.opb) (mantDecode s.opc)
      (Status.legal 1#2 (outOfDomain s.opa s.opb s.opc))) := rfl

/-- RECOMPOSE of any operands completes with their product (R170). -/
theorem exec_recompose (s : State) : exec .recompose s =
    .next (s.complete (product3 s.opa s.opb s.opc) 0x00000000#32 0x00000000#32 (Status.legal 2#2 false)) := rfl

/-! ### Values of patterns -/

/-- A pattern with a fraction of 0 and an exponent field that is not is a power of two (R12). -/
theorem val32_packFields_power (b : Bool) {e : Nat} (h₁ : 1 ≤ e) (h₂ : e < 256) :
    val32 (packFields b e 0) = (if b then -1 else 1) * 2 ^ ((e : ℤ) - 127) := by
  have mag : magnitude (packFields b e 0) = ⟨2 ^ 23, e - 150⟩ := by
    rw [magnitude_packFields b h₂ (by omega), if_neg (by omega), Nat.add_zero]
  rw [val32_eq, isNeg_packFields b h₂ (by omega), mag, Mag.value_eq,
    show (e : ℤ) - 127 = 23 + (e - 150) by ring, zpow_add₀ (two_ne_zero' ℚ)]
  norm_num

/-! ### The sign value -/

/-- The sign value by the parity of the operand as a number (R131). -/
theorem signDecode_eq_parity (s : Word) : signDecode s = if s.toNat % 2 = 1 then negOne else posOne := by
  simp [signDecode, BitVec.getLsbD, Nat.testBit_zero]

/-- A sign operand of 0 gives +1.0 (R131). -/
theorem signDecode_zero : signDecode 0#32 = posOne := rfl

/-- A sign operand of 1 gives −1.0 (R131). -/
theorem signDecode_one : signDecode 1#32 = negOne := rfl

/-- A sign chosen by parity is a power of −1 (R131). -/
theorem ite_odd_eq_neg_one_pow (n : Nat) : (if n % 2 = 1 then (-1 : ℚ) else 1) = (-1) ^ n := by
  rw [neg_one_pow_eq_pow_mod_two]
  rcases Nat.mod_two_eq_zero_or_one n with h | h <;> simp [h]

/-- The sign value is (−1)^s exactly (R131). -/
theorem val32_signDecode (s : Word) : val32 (signDecode s) = (-1) ^ s.toNat := by
  simp [signDecode_eq, val32_packFields_power, ← ite_odd_eq_neg_one_pow]

/-- The sign field says (−1)^s as the sign of the pattern does (R10, R12). -/
theorem neg_one_pow_signField (x : Word) : (-1 : ℚ) ^ (signField x).toNat = if isNeg x then -1 else 1 := by
  rw [signField_word]
  cases isNeg x <;> simp

/-! ### The exponent value -/

/-- The exponent value is Round32 of the exact power, since the integer rounding is Round32 (R132). -/
theorem expDecode_eq_round32Exact (e : Word) : expDecode e = round32Exact false (2 ^ ((e.toNat : ℤ) - 127)) := by
  rw [expDecode, round32_eq_round32Exact, Nat.cast_one, one_mul]
  rfl

/-- Exponent 0 gives 2^-127, a subnormal pattern (R133). -/
theorem expDecode_zero : expDecode 0#32 = 0x00400000#32 := by
  rw [expDecode_eq]
  rfl

/-- Exponents 1 to 254 give the pattern with that exponent field alone (R133). -/
theorem expDecode_of_normal {e : Word} (h₁ : 1 ≤ e.toNat) (h₂ : e.toNat ≤ 254) : expDecode e = e <<< 23 := by
  rw [expDecode_eq, if_neg (by omega), if_pos h₂]
  simp [packFields, signBit]

/-- The bias as exponent gives +1.0 (R133, R140). -/
theorem expDecode_bias : expDecode 127#32 = posOne := expDecode_of_normal (by decide) (by decide)

/-- Exponents from 255 on give +infinity (R133). -/
theorem expDecode_of_overflow {e : Word} (h : 255 ≤ e.toNat) : expDecode e = posInf := by
  rw [expDecode_eq, if_neg (by omega), if_neg (by omega)]
  rfl

/-- Exponent 0 gives a subnormal number (R133). -/
theorem classify_expDecode_zero : classify (expDecode 0#32) = .subnormal := by
  rw [expDecode_zero]
  decide

/-- Exponents 1 to 254 give a normal number (R133). -/
theorem classify_expDecode_of_normal {e : Word} (h₁ : 1 ≤ e.toNat) (h₂ : e.toNat ≤ 254) :
    classify (expDecode e) = .normal :=
  classify_round32_normal (p := 0) false (by norm_num) (by norm_num) (by norm_num) (by simp [rebias, Config.bias]; omega)
    (by simp [rebias, Config.bias]; omega)

/-- The exponent value has a plus sign (R133). -/
theorem isNeg_expDecode (e : Word) : isNeg (expDecode e) = false := isNeg_round32 _ _

/-- The exponent value is no zero: the least power is still a subnormal number (R133). -/
theorem expDecode_not_zero (e : Word) : classify (expDecode e) ≠ .zero := by
  rw [expDecode_eq, ne_eq, classify_eq_zero]
  split_ifs with h0 h1
  · decide
  · rw [expField_packFields false (by omega) (by omega)]
    omega
  · decide

/-- The exponent value is the power 2^(e−127) exactly, while that is below 2^128 (R133). -/
theorem val32_expDecode {e : Word} (h : e.toNat ≤ 254) : val32 (expDecode e) = 2 ^ ((e.toNat : ℤ) - 127) := by
  rw [expDecode_eq]
  split_ifs with h0
  · rw [h0, ← round32_subnormal false (by norm_num), val32_round32 false (by norm_num) (by norm_num) (by norm_num)]
    norm_num
  · rw [val32_packFields_power false (by omega) (by omega)]
    simp

/-! ### The mantissa accumulator -/

/-- The sum of two patterns with plus signs is Round32 of the sum of their values (R134). -/
theorem addNonneg_eq_round32Exact {x y : Word} (hx : isNeg x = false) (hy : isNeg y = false) :
    addNonneg x y = round32Exact false (val32 x + val32 y) := by
  have sum := Mag.value_add (magnitude x) (magnitude y)
  rw [Mag.value_eq] at sum
  rw [addNonneg, round32_eq_round32Exact, sum, val32_eq, val32_eq, hx, hy]
  simp

/-- One iteration of the accumulator as the spec writes it, on rationals (R134). -/
def accumulateExact (f acc : Word) (i : Nat) : Word :=
  if f.getLsbD i then round32Exact false (val32 acc + val32 (BitVec.ofNat 32 (i + 104) <<< 23)) else acc

/-- An iteration keeps the plus sign (R134). -/
theorem isNeg_accumulate {f acc : Word} (h : isNeg acc = false) (i : Nat) : isNeg (accumulate f acc i) = false := by
  unfold accumulate
  split
  · exact isNeg_round32 _ _
  · exact h

/-- The two forms of an iteration agree on an accumulator with a plus sign (R134). -/
theorem accumulate_eq_accumulateExact (f : Word) {acc : Word} {i : Nat} (h : isNeg acc = false) (hi : i ≤ 22) :
    accumulate f acc i = accumulateExact f acc i := by
  have hw : isNeg (weight i) = false := by
    rw [weight_eq]
    exact isNeg_packFields false (by omega) (by omega)
  rw [accumulate, accumulateExact, addNonneg_eq_round32Exact h hw]
  rfl

/-- The two forms agree over any list of places, since the plus sign is kept (R134). -/
theorem foldl_accumulate_eq_exact (f : Word) (l : List Nat) (hl : ∀ i ∈ l, i ≤ 22) {acc : Word}
    (h : isNeg acc = false) : l.foldl (accumulate f) acc = l.foldl (accumulateExact f) acc := by
  induction l generalizing acc with
  | nil => rfl
  | cons i l ih =>
    obtain ⟨hi, hl⟩ := List.forall_mem_cons.1 hl
    rw [List.foldl_cons, List.foldl_cons, ← accumulate_eq_accumulateExact f h hi]
    exact ih hl (isNeg_accumulate h i)

/-- The mantissa value is the spec's sum of rounded partial sums (R134). -/
theorem mantDecode_eq_foldl_exact (f : Word) : mantDecode f = (List.range 23).foldl (accumulateExact f) posZero :=
  foldl_accumulate_eq_exact f (List.range 23) (fun _ hi => Nat.le_of_lt_succ (List.mem_range.1 hi)) (by decide)

/-- The accumulator's value is exactly that of the bits seen (R135). -/
theorem val32_mantAccumulator (f : Word) {n : Nat} (h : n ≤ 23) :
    val32 (mantAccumulator f n) = ((f.toNat % 2 ^ n : ℕ) : ℚ) * 2 ^ (-23 : ℤ) := by
  have bound : f.toNat % 2 ^ n < 2 ^ 24 :=
    lt_of_lt_of_le (Nat.mod_lt _ (Nat.two_pow_pos n)) (Nat.pow_le_pow_right (by omega) (by omega))
  rw [mantAccumulator_eq f h, val32_round32 false bound (by omega) (by omega)]
  simp

/-- The accumulator is a normal number from the first set bit on (R135). -/
theorem classify_mantAccumulator (f : Word) {n : Nat} (h : n ≤ 23) (hne : f.toNat % 2 ^ n ≠ 0) :
    classify (mantAccumulator f n) = .normal := by
  have hlog : Nat.log2 (f.toNat % 2 ^ n) < n := (Nat.log2_lt hne).2 (Nat.mod_lt _ (Nat.two_pow_pos n))
  rw [mantAccumulator_eq f h]
  exact classify_round32_normal false (Nat.log2_self_le hne) Nat.lt_log2_self (by omega) (by omega) (by omega)

/-- The sum of bit weights does not depend on the order of the places. -/
theorem bitSum_perm (f : Word) {l l' : List Nat} (h : l.Perm l') : bitSum f l = bitSum f l' :=
  (h.map _).sum_eq

/-- The additions in any order give the mantissa value: in each order every partial sum is exact (R135). -/
theorem foldl_accumulate_of_perm (f : Word) {order : List Nat} (h : order.Perm (List.range 23)) :
    order.foldl (accumulate f) posZero = mantDecode f := by
  have sum : bitSum f order = f.toNat % 2 ^ 23 := (bitSum_perm f h).trans (bitSum_range f 23)
  have places : ∀ i ∈ order, i ≤ 22 := fun i hi => Nat.le_of_lt_succ (List.mem_range.1 (h.mem_iff.1 hi))
  have folded := foldl_accumulate f order 0 places (by omega)
  rw [sum, Nat.zero_add, ← mantDecode_eq] at folded
  exact folded

/-! ### The mantissa value -/

/-- The mantissa value reads the fraction field of its operand alone (R136, R139). -/
theorem mantDecode_eq_fracField (f : Word) : mantDecode f = round32 false ⟨(fracField f).toNat, -23⟩ := by
  rw [mantDecode_eq, fracField_toNat]

/-- The mantissa value of a non-zero fraction, `p` the index of its highest set bit: exponent p − 23, and the bits below
the highest one moved to the top of the fraction (R136). -/
theorem mantDecode_closed {f : Word} {p : Nat} (h₁ : 2 ^ p ≤ (fracField f).toNat)
    (h₂ : (fracField f).toNat < 2 ^ (p + 1)) :
    mantDecode f = (BitVec.ofNat 32 (p + 104) <<< 23) ||| ((fracField f <<< (23 - p)) &&& 0x7FFFFF#32) := by
  have hp : p < 23 := (Nat.pow_lt_pow_iff_right (by norm_num)).1 (h₁.trans_lt (fracField_lt f))
  rw [mantDecode_eq_fracField, round32_normal false h₁ h₂ (by omega) (by omega) (by omega),
    fraction_shift _ (fracField_lt f) h₁ h₂, show ((p : ℤ) + -23 + 127).toNat = p + 104 by omega]
  simp [packFields, signBit]

/-- The mantissa value lies in [0, 1 − 2^-23] (R136). -/
theorem val32_mantDecode_mem (f : Word) : 0 ≤ val32 (mantDecode f) ∧ val32 (mantDecode f) ≤ 1 - 2 ^ (-23 : ℤ) := by
  have hg : ((f.toNat % 2 ^ 23 : ℕ) : ℚ) ≤ 2 ^ 23 - 1 := by
    rw [le_sub_iff_add_le]
    exact_mod_cast Nat.mod_lt f.toNat (by norm_num : 0 < 2 ^ 23)
  rw [val32_mantDecode]
  refine ⟨by positivity, ?_⟩
  calc ((f.toNat % 2 ^ 23 : ℕ) : ℚ) * 2 ^ (-23 : ℤ) ≤ (2 ^ 23 - 1) * 2 ^ (-23 : ℤ) := by gcongr
    _ = 1 - 2 ^ (-23 : ℤ) := by norm_num

/-! ### Decoded fields of a normal value -/

/-- A normal value by its decoded fields, with the implicit 1 put in (R142). -/
theorem val32_of_normal {x : Word} (h : classify x = .normal) : val32 x =
    (-1) ^ (signField x).toNat * 2 ^ (((expField x).toNat : ℤ) - 127) * (1 + (fracField x).toNat * 2 ^ (-23 : ℤ)) := by
  have he := ((classify_eq_normal x).1 h).1
  rw [val32_eq, magnitude_of_ne (by omega), Mag.value_eq, neg_one_pow_signField,
    show ((expField x).toNat : ℤ) - 127 = 23 + ((expField x).toNat - 150) by ring, zpow_add₀ (two_ne_zero' ℚ)]
  push_cast
  ring

/-- RECOMPOSE of decoded fields with an exponent from 1 to 254 is exact (R142, R173). -/
theorem val32_product3_decoded (s e f : Word) (h₁ : 1 ≤ e.toNat) (h₂ : e.toNat ≤ 254) :
    val32 (product3 (signDecode s) (expDecode e) (mantDecode f)) =
      (-1) ^ s.toNat * ((f.toNat % 2 ^ 23 : ℕ) : ℚ) * 2 ^ ((e.toNat : ℤ) - 150) := by
  rw [product3_decoded_finite s e f h₂, val32_round32 _ (by omega) (by omega) (by omega)]
  simp only [decide_eq_true_eq, ite_odd_eq_neg_one_pow, mul_assoc]

/-- RECOMPOSE of decoded fields with an exponent from 1 to 254 gives the product of their values (R142). -/
theorem val32_product3_decoded_eq_mul (s e f : Word) (h₁ : 1 ≤ e.toNat) (h₂ : e.toNat ≤ 254) :
    val32 (product3 (signDecode s) (expDecode e) (mantDecode f)) =
      val32 (signDecode s) * val32 (expDecode e) * val32 (mantDecode f) := by
  rw [val32_product3_decoded s e f h₁ h₂, val32_signDecode, val32_expDecode h₂, val32_mantDecode,
    show (e.toNat : ℤ) - 150 = (e.toNat - 127) + -23 by ring, zpow_add₀ (two_ne_zero' ℚ)]
  ring

/-! ### The obligations -/

/-- Settles O29: each result is its model function, and each of these is the spec's formula. -/
theorem decodeResult : Obligations.DecodeResult := by
  refine ⟨fun s => ?_, fun s t h => ?_, fun s t ha hb hc h => ?_⟩
  · rw [exec_decode, expDecode_eq_round32Exact, mantDecode_eq_foldl_exact, outOfDomain_eq]
    rfl
  · cases (exec_decode s).symm.trans h
    exact ⟨fun hb => ⟨hb ▸ expDecode_zero, hb ▸ classify_expDecode_zero⟩,
      fun hb => expDecode_of_overflow (by simp [hb]), fun hc => mantDecode_of_zero (by simp [hc])⟩
  · cases (exec_decode s).symm.trans h
    have exponent : expDecode 132#32 = 0x42000000#32 := expDecode_of_normal (by decide) (by decide)
    have mantissa : mantDecode 2731540#32 = 0x3EA6B850#32 :=
      mantDecode_closed (p := 21) (by decide) (by decide)
    exact ⟨ha ▸ signDecode_zero, hb ▸ exponent, (congrArg mantDecode hc).trans mantissa⟩

/-- Settles O31: the integer rounding of 2^(e−127) is Round32 of that rational. -/
theorem expDecodeRoundsExactPower : Obligations.ExpDecodeRoundsExactPower :=
  fun s => ⟨_, exec_decode s, expDecode_eq_round32Exact s.opb⟩

/-- Settles O32: the three ranges of the exponent are 0, 1 to 254, and 255 and above. -/
theorem expDecodeClosedForm : Obligations.ExpDecodeClosedForm := fun s =>
  ⟨_, exec_decode s, fun h => h ▸ expDecode_zero, expDecode_of_normal, expDecode_of_overflow,
    fun h => h ▸ expDecode_bias, fun h => h ▸ classify_expDecode_zero, classify_expDecode_of_normal, val32_expDecode,
    isNeg_expDecode _, expDecode_not_zero _, expDecode_not_nan _⟩

/-- Settles O33: every partial sum is a multiple of 2^-23 below 1, so none is rounded, in whatever order. -/
theorem mantissaSumExactInAnyOrder : Obligations.MantissaSumExactInAnyOrder :=
  ⟨fun f j hj => ⟨val32_mantAccumulator f (by omega), classify_mantAccumulator f (by omega)⟩,
    fun s => ⟨_, exec_decode s, val32_mantDecode s.opc, fun _ h => foldl_accumulate_of_perm s.opc h⟩⟩

/-- Settles O34: the mantissa value is a fraction below 1 with at most 23 bits, which is packed with no rounding. -/
theorem mantDecodeClosedForm : Obligations.MantDecodeClosedForm := by
  intro s
  obtain ⟨nonneg, below⟩ := val32_mantDecode_mem s.opc
  refine ⟨_, exec_decode s, fun h => mantDecode_of_zero ?_, fun p => mantDecode_closed, nonneg, below,
    (mantDecode_finite s.opc).2⟩
  rw [← fracField_toNat, fracField, h]
  rfl

/-- Settles O37: each result lies in its output domain, and the exponent's is exact up to 254. -/
theorem decodeOutputDomains : Obligations.DecodeOutputDomains := fun s =>
  ⟨_, exec_decode s, decodeResults s.opa s.opb s.opc, val32_expDecode, fun h => expDecode_of_overflow (by simp [h])⟩

/-- Settles O38: the decoded fields are exact, so their product is the value less the term of the implicit 1. -/
theorem decodedFieldsOfNormal : Obligations.DecodedFieldsOfNormal := by
  intro s hs
  obtain ⟨h₁, h₂⟩ := (classify_eq_normal s.opa).1 hs
  have sign := val32_signDecode (signField s.opa)
  have exponent := val32_expDecode h₂
  have mantissa : val32 (mantDecode (fracField s.opa)) = (fracField s.opa).toNat * 2 ^ (-23 : ℤ) := by
    rw [val32_mantDecode, Nat.mod_eq_of_lt (fracField_lt s.opa)]
  have value : val32 s.opa = val32 (signDecode (signField s.opa)) * val32 (expDecode (expField s.opa)) *
      (1 + val32 (mantDecode (fracField s.opa))) := by
    rw [sign, exponent, mantissa, val32_of_normal hs]
  have recomposed : val32 (product3 (signDecode (signField s.opa)) (expDecode (expField s.opa))
      (mantDecode (fracField s.opa))) =
      val32 s.opa - val32 (signDecode (signField s.opa)) * val32 (expDecode (expField s.opa)) := by
    rw [val32_product3_decoded_eq_mul _ _ _ h₁ h₂, value]
    ring
  exact ⟨_, _, _, exec_extract s, exec_decode _, exec_recompose _, sign, exponent, mantissa, value, recomposed⟩

/-- Settles O30: bit 0 of the operand is its parity. -/
theorem signDecodeByParity : Obligations.SignDecodeByParity := fun s =>
  ⟨_, exec_decode s, fun h => h ▸ signDecode_zero, fun h => h ▸ signDecode_one, signDecode_eq_parity s.opa⟩

/-- Settles O36: the properties are cases of the three values at single operands. -/
theorem decoderProperties : Obligations.DecoderProperties := fun s =>
  ⟨_, exec_decode s, fun h => h ▸ signDecode_zero, fun h => h ▸ signDecode_one, fun h => h ▸ expDecode_bias,
    fun h => mantDecode_of_zero (by simp [h])⟩

end Sys2Proof.Machine

/-! PROOFS. Round32 outside the normal range, FMul32 on every pair of classes, and RECOMPOSE on any operands: its result, its
corner cases, and the order of its two products (spec R13, R16 to R18, R170 to R172, R175). -/

namespace Sys2Proof.Machine

/-! ### Rounding outside the normal range -/

/-- RNE never goes below the floor (R13). -/
theorem floor_le_rne (y : ℚ) : ⌊y⌋₊ ≤ rne y := by
  simp only [rne]
  split_ifs <;> omega

/-- RNE goes at most one above the floor (R13). -/
theorem rne_le_floor_add_one (y : ℚ) : rne y ≤ ⌊y⌋₊ + 1 := by
  simp only [rne]
  split_ifs <;> omega

/-- RNE of a number below an integer is at most that integer (R13). -/
theorem rne_le_of_lt {y : ℚ} {n : ℕ} (h₀ : 0 ≤ y) (h : y < n) : rne y ≤ n :=
  (rne_le_floor_add_one y).trans ((Nat.floor_lt h₀).2 h)

/-- RNE of at most one half is 0: the tie goes to the even integer (R13, R16). -/
theorem rne_eq_zero_of_le_half {y : ℚ} (h : y ≤ 1 / 2) : rne y = 0 := by
  have floor : ⌊y⌋₊ = 0 := Nat.floor_eq_zero.2 (by linarith)
  simp [rne, floor, not_lt.2 (show y ≤ 2⁻¹ by linarith)]

/-- Below the normal range Round32 keeps RNE of the multiple of 2^-149, a carry into the normal range included (R13, R17). -/
theorem round32Exact_of_lt (b : Bool) {r : ℚ} (h₀ : 0 ≤ r) (h : r < 2 ^ (-126 : ℤ)) :
    round32Exact b r = signBit b ||| BitVec.ofNat 32 (rne (r * 2 ^ (149 : ℤ))) := by
  obtain rfl | hr := h₀.eq_or_lt
  · simp [round32Exact, rne]
  · have hlog : Int.log 2 r < -126 := (Int.lt_zpow_iff_log_lt (by norm_num) hr).1 (by exact_mod_cast h)
    have scale : r / 2 ^ (-149 : ℤ) = r * 2 ^ (149 : ℤ) := by rw [zpow_neg, div_inv_eq_mul]
    have kept : rne (r * 2 ^ (149 : ℤ)) ≤ 2 ^ 23 := by
      refine rne_le_of_lt (by positivity) ?_
      calc r * 2 ^ (149 : ℤ) < 2 ^ (-126 : ℤ) * 2 ^ (149 : ℤ) := by gcongr
        _ = (2 ^ 23 : ℕ) := by norm_num
    rw [round32Exact_of_ne_zero b hr.ne' (t := -149) (by omega), scale, if_neg (by omega)]
    obtain hlt | heq := kept.lt_or_eq
    · rw [packKept_subnormal b hlt, signBit_or_ofNat]
    · rw [heq]
      cases b <;> decide

/-- At most half the least subnormal rounds to a signed zero (R13, R17, R175). -/
theorem round32Exact_underflow (b : Bool) {r : ℚ} (h₀ : 0 ≤ r) (h : r ≤ 2 ^ (-150 : ℤ)) :
    round32Exact b r = signBit b := by
  have half : r * 2 ^ (149 : ℤ) ≤ 1 / 2 :=
    calc r * 2 ^ (149 : ℤ) ≤ 2 ^ (-150 : ℤ) * 2 ^ (149 : ℤ) := by gcongr
      _ = 1 / 2 := by norm_num
  rw [round32Exact_of_lt b h₀ (h.trans_lt (by norm_num)), rne_eq_zero_of_le_half half]
  exact BitVec.or_zero

/-- From 2^128 on everything rounds to an infinity (R13, R175). -/
theorem round32Exact_overflow (b : Bool) {r : ℚ} (h : 2 ^ (128 : ℤ) ≤ r) :
    round32Exact b r = signBit b ||| posInf := by
  have hr : 0 < r := lt_of_lt_of_le (by positivity) h
  have hlog : 128 ≤ Int.log 2 r := (Int.zpow_le_iff_le_log (by norm_num) hr).1 (by exact_mod_cast h)
  have kept : 2 ^ 23 ≤ rne (r / 2 ^ (Int.log 2 r - 23)) := by
    refine le_trans (Nat.le_floor ?_) (floor_le_rne _)
    have hpow : (2 : ℚ) ^ Int.log 2 r ≤ r := by exact_mod_cast Int.zpow_log_le_self (by norm_num) hr
    rw [le_div_iff₀ (by positivity)]
    calc ((2 ^ 23 : ℕ) : ℚ) * 2 ^ (Int.log 2 r - 23) = 2 ^ Int.log 2 r := by
          rw [zpow_sub₀ two_ne_zero]
          norm_num
          ring
      _ ≤ r := hpow
  rw [round32Exact_of_ne_zero b hr.ne' (t := Int.log 2 r - 23) (by omega), signBit_or_posInf]
  split
  · exact packKept_overflow b le_rfl (by omega)
  · exact packKept_overflow b kept (by omega)

/-! ### FMul32 by classes -/

/-- FMul32 is commutative (R171). -/
theorem fmul32_comm (x y : Word) : fmul32 x y = fmul32 y x := by
  have mag : (magnitude x).mul (magnitude y) = (magnitude y).mul (magnitude x) := by
    simp only [Mag.mul, Nat.mul_comm, Int.add_comm]
  have invalid : (classify x = .infinity ∧ classify y = .zero ∨ classify x = .zero ∧ classify y = .infinity) ↔
      (classify y = .infinity ∧ classify x = .zero ∨ classify y = .zero ∧ classify x = .infinity) := by tauto
  simp only [fmul32, mag, invalid, Bool.xor_comm (isNeg x), or_comm (a := classify x = _)]

/-- An infinity times a zero is no number (R171). -/
theorem fmul32_infinity_zero {x y : Word} (hx : classify x = .infinity) (hy : classify y = .zero) :
    fmul32 x y = canonNaN := by
  simp [fmul32, hx, hy]

/-- A zero times an infinity is no number (R171). -/
theorem fmul32_zero_infinity {x y : Word} (hx : classify x = .zero) (hy : classify y = .infinity) :
    fmul32 x y = canonNaN :=
  (fmul32_comm x y).trans (fmul32_infinity_zero hy hx)

/-- An infinity times anything but a NaN or a zero is an infinity (R171). -/
theorem fmul32_of_infinity {x y : Word} (hx : classify x = .infinity) (hn : classify y ≠ .nan)
    (hz : classify y ≠ .zero) : fmul32 x y = ((signField x ^^^ signField y) <<< 31) ||| posInf := by
  simp [fmul32, hx, hn, hz, signField_xor_shift]

/-- Anything but a NaN or a zero times an infinity is an infinity (R171). -/
theorem fmul32_of_infinity_right {x y : Word} (hn : classify x ≠ .nan) (hz : classify x ≠ .zero)
    (hy : classify y = .infinity) : fmul32 x y = ((signField x ^^^ signField y) <<< 31) ||| posInf := by
  rw [fmul32_comm, fmul32_of_infinity hy hn hz, BitVec.xor_comm]

/-- A zero times anything but a NaN or an infinity is a zero (R171). -/
theorem fmul32_of_zero {x y : Word} (hx : classify x = .zero) (hn : classify y ≠ .nan) (hi : classify y ≠ .infinity) :
    fmul32 x y = (signField x ^^^ signField y) <<< 31 := by
  simp [fmul32, hx, hn, hi, signField_xor_shift]

/-- Anything but a NaN or an infinity times a zero is a zero (R171). -/
theorem fmul32_of_zero_right {x y : Word} (hn : classify x ≠ .nan) (hi : classify x ≠ .infinity)
    (hy : classify y = .zero) : fmul32 x y = (signField x ^^^ signField y) <<< 31 := by
  rw [fmul32_comm, fmul32_of_zero hy hn hi, BitVec.xor_comm]

/-- The product of finite patterns is Round32 of the exact product of their values (R171). -/
theorem fmul32_eq_round32Exact {x y : Word} (hx : (expField x).toNat ≠ 255) (hy : (expField y).toNat ≠ 255) :
    fmul32 x y = round32Exact (isNeg x ^^ isNeg y) (|val32 x| * |val32 y|) := by
  rw [fmul32_finite hx hy, abs_val32, abs_val32, ← Mag.value_mul, Mag.value_eq, ← round32_eq_round32Exact]

/-- The sign of every product that is no NaN is that of the two signs combined (R171). -/
theorem isNeg_fmul32 {x y : Word} (h : classify (fmul32 x y) ≠ .nan) : isNeg (fmul32 x y) = (isNeg x ^^ isNeg y) := by
  have canonical : classify canonNaN = .nan := by decide
  unfold fmul32 at h ⊢
  split_ifs at h ⊢
  · exact absurd canonical h
  · exact absurd canonical h
  · rw [signBit_or_posInf, isNeg_packFields _ (by omega) (by omega)]
  · rw [signBit_eq_packFields, isNeg_packFields _ (by omega) (by omega)]
  · exact isNeg_round32 _ _

/-- The sign field of a product that is no NaN (R171). -/
theorem signField_fmul32 {x y : Word} (h : classify (fmul32 x y) ≠ .nan) :
    signField (fmul32 x y) = signField x ^^^ signField y := by
  rw [signField_word, signField_word, signField_word, isNeg_fmul32 h]
  cases isNeg x <;> cases isNeg y <;> rfl

/-! ### A factor of ±1 -/

/-- Rounding writes its sign over what it gives for a plus sign (R13). -/
theorem round32_eq_signBit_or (b : Bool) (r : Mag) : round32 b r = signBit b ||| round32 false r := by
  have packed (m : Nat) (t : Int) : packKept b m t = signBit b ||| packKept false m t := by
    unfold packKept packFields
    split_ifs <;> simp [signBit, BitVec.or_assoc]
  simp only [round32]
  split_ifs
  · simp [signBit]
  · exact packed _ _
  · exact packed _ _

/-- ±1 times a packed pattern that is no NaN (R171). -/
theorem fmul32_one_packFields (b n : Bool) {e f : Nat} (he : e ≤ 255) (hf : f < 2 ^ 23) (hn : e = 255 → f = 0) :
    fmul32 (packFields b 127 0) (packFields n e f) = packFields (b ^^ n) e f := by
  have he' : e < 256 := by omega
  have notNaN : classify (packFields n e f) ≠ .nan := by
    rw [ne_eq, classify_eq_nan, expField_packFields n he' hf, fracField_packFields n he' hf]
    omega
  rw [fmul32_one b notNaN, isNeg_packFields n he' hf, expField_packFields n he' hf, fracField_packFields n he' hf]

/-- ±1 times a rounded number is the number rounded with the signs combined (R13, R171). -/
theorem fmul32_one_round32 (b n : Bool) (r : Mag) : fmul32 (packFields b 127 0) (round32 n r) = round32 (b ^^ n) r := by
  obtain ⟨e, f, hr, he, hf, hn⟩ := round32_form false r
  have packed (c : Bool) : round32 c r = packFields c e f := by
    rw [round32_eq_signBit_or, hr]
    simp [packFields, signBit, BitVec.or_assoc]
  rw [packed n, packed (b ^^ n), fmul32_one_packFields b n he hf hn]

/-- ±1 times a pattern that is no NaN changes its sign, and neither its class nor its magnitude (R171). -/
theorem isNeg_classify_magnitude_fmul32_one (b : Bool) {x : Word} (h : classify x ≠ .nan) :
    isNeg (fmul32 (packFields b 127 0) x) = (b ^^ isNeg x) ∧ classify (fmul32 (packFields b 127 0) x) = classify x ∧
      magnitude (fmul32 (packFields b 127 0) x) = magnitude x := by
  have he := expField_lt x
  have hf := fracField_lt x
  have hexp := expField_packFields (b ^^ isNeg x) he hf
  have hfrac := fracField_packFields (b ^^ isNeg x) he hf
  rw [fmul32_one b h]
  refine ⟨isNeg_packFields _ he hf, ?_, ?_⟩
  · simp only [classify, BitVec.eq_of_toNat_eq hexp, BitVec.eq_of_toNat_eq hfrac]
  · simp only [magnitude, BitVec.eq_of_toNat_eq hexp, BitVec.eq_of_toNat_eq hfrac]

/-- A factor of ±1 may be taken out of a product: multiplying by it is exact (R172). -/
theorem fmul32_one_assoc (b : Bool) (x y : Word) :
    fmul32 (fmul32 (packFields b 127 0) x) y = fmul32 (packFields b 127 0) (fmul32 x y) := by
  have nan : fmul32 (packFields b 127 0) canonNaN = canonNaN := fmul32_of_nan (.inr (by decide))
  by_cases hx : classify x = .nan
  · rw [fmul32_of_nan (x := x) (.inl hx), fmul32_of_nan (y := x) (.inr hx), nan, fmul32_of_nan (.inl (by decide))]
  · obtain ⟨sign, cls, mag⟩ := isNeg_classify_magnitude_fmul32_one b hx
    generalize fmul32 (packFields b 127 0) x = x' at sign cls mag
    simp only [fmul32.eq_1 x', fmul32.eq_1 x y, sign, cls, mag, Bool.xor_assoc]
    split_ifs
    · exact nan.symm
    · exact nan.symm
    · rw [signBit_or_posInf, signBit_or_posInf, fmul32_one_packFields b _ (by omega) (by omega) (by omega)]
    · rw [signBit_eq_packFields, signBit_eq_packFields, fmul32_one_packFields b _ (by omega) (by omega) (by omega)]
    · exact (fmul32_one_round32 b _ _).symm

/-! ### RECOMPOSE on any operands -/

/-- An infinite first product times a third operand that is neither NaN nor zero gives an infinity (R171, R175). -/
theorem product3_of_infinity_left {a b c : Word} (hab : classify (fmul32 a b) = .infinity) (hn : classify c ≠ .nan)
    (hz : classify c ≠ .zero) : product3 a b c = ((signField a ^^^ signField b ^^^ signField c) <<< 31) ||| posInf := by
  rw [product3, fmul32_of_infinity hab hn hz, signField_fmul32 (by simp [hab])]

/-- An infinite third operand of a first product that is neither NaN nor zero gives an infinity (R171, R175). -/
theorem product3_of_infinity_right {a b c : Word} (hn : classify (fmul32 a b) ≠ .nan)
    (hz : classify (fmul32 a b) ≠ .zero) (hc : classify c = .infinity) :
    product3 a b c = ((signField a ^^^ signField b ^^^ signField c) <<< 31) ||| posInf := by
  rw [product3, fmul32_of_infinity_right hn hz hc, signField_fmul32 hn]

/-- A product of finite patterns of at most half the least subnormal is a signed zero (R171, R175). -/
theorem fmul32_underflow {x y : Word} (hx : (expField x).toNat ≠ 255) (hy : (expField y).toNat ≠ 255)
    (h : |val32 x| * |val32 y| ≤ 2 ^ (-150 : ℤ)) : fmul32 x y = (signField x ^^^ signField y) <<< 31 := by
  rw [fmul32_eq_round32Exact hx hy, round32Exact_underflow _ (by positivity) h, signField_xor_shift]

/-- A product of finite patterns of at least 2^128 is an infinity (R171, R175). -/
theorem fmul32_overflow {x y : Word} (hx : (expField x).toNat ≠ 255) (hy : (expField y).toNat ≠ 255)
    (h : 2 ^ (128 : ℤ) ≤ |val32 x| * |val32 y|) : fmul32 x y = ((signField x ^^^ signField y) <<< 31) ||| posInf := by
  rw [fmul32_eq_round32Exact hx hy, round32Exact_overflow _ h, signField_xor_shift]

/-- A pattern of class normal or subnormal is neither NaN nor zero (R11). -/
theorem not_nan_not_zero_of_class {x : Word} (h : classify x = .normal ∨ classify x = .subnormal) :
    classify x ≠ .nan ∧ classify x ≠ .zero := by
  obtain h | h := h <;> simp [h]

/-! ### The obligations -/

/-- Settles O42: each class pair is a branch of FMul32, and commutativity exchanges the two factors. -/
theorem fmul32CorrectlyRounded : Obligations.Fmul32CorrectlyRounded := by
  intro x y
  exact ⟨fmul32_of_nan, fmul32_infinity_zero, fmul32_zero_infinity, fmul32_of_infinity,
    fun hy hn hz => fmul32_of_infinity_right hn hz hy, fmul32_of_zero, fun hy hn hi => fmul32_of_zero_right hn hi hy,
    fun hx hy => fmul32_eq_round32Exact (expField_ne_of_class hx) (expField_ne_of_class hy), isNeg_fmul32,
    fmul32_comm x y⟩

/-- Settles O43: RECOMPOSE is two products, and in the example the first is by 1.0. -/
theorem recomposeResult : Obligations.RecomposeResult := by
  refine ⟨exec_recompose, fun s t ha hb hc h => ?_⟩
  cases (exec_recompose s).symm.trans h
  have first : fmul32 0x3F800000#32 0x42000000#32 = 0x42000000#32 := by decide
  have second : fmul32 0x42000000#32 0x3EA6B850#32 = 0x4126B850#32 := by decide
  simp only [State.complete_res0, product3, ha, hb, hc, first, second]

/-- Settles O45: the sign value is ±1.0, a factor that may be taken out of the product; (2^127 · 2) · 2^-1 overflows, and
2^127 · (2 · 2^-1) does not. -/
theorem orderImmaterialForDecodedOperands : Obligations.OrderImmaterialForDecodedOperands := by
  refine ⟨fun s => ⟨_, exec_recompose s, rfl⟩, ⟨0x7F000000#32, 0x40000000#32, 0x3F000000#32, by decide⟩,
    fun s => ⟨_, _, exec_decode s, exec_recompose _, ?_⟩⟩
  simp only [State.complete_res0, State.complete_res1, State.complete_res2, product3, signDecode_eq]
  exact fmul32_one_assoc _ _ _

/-- Settles O46: each corner case is a branch of FMul32 in the first product or in the second. -/
theorem recomposeCornerCases : Obligations.RecomposeCornerCases := by
  intro s
  have invalidFirst (h : fmul32 s.opa s.opb = canonNaN) : product3 s.opa s.opb s.opc = canonNaN := by
    rw [product3, h]
    exact fmul32_of_nan (.inl (by decide))
  refine ⟨_, exec_recompose s, rfl, product3_of_nan, fun ha hb => invalidFirst (fmul32_infinity_zero ha hb),
    fun ha hb => invalidFirst (fmul32_zero_infinity ha hb), fmul32_infinity_zero, fmul32_zero_infinity, fun hab hc => ?_,
    fun hab hc => ?_, fun ha hb => ?_, fun ha hb => ?_, fun x y hx hy => ⟨?_, ?_⟩⟩
  · obtain ⟨hn, hz⟩ := not_nan_not_zero_of_class hc
    exact product3_of_infinity_left hab hn hz
  · obtain ⟨hn, hz⟩ := not_nan_not_zero_of_class hab
    exact product3_of_infinity_right hn hz hc
  · obtain ⟨hn, hz⟩ := not_nan_not_zero_of_class hb
    exact fmul32_of_infinity ha hn hz
  · obtain ⟨hn, hz⟩ := not_nan_not_zero_of_class ha
    exact fmul32_of_infinity_right hn hz hb
  · exact fmul32_underflow (expField_ne_of_class hx) (expField_ne_of_class hy)
  · exact fmul32_overflow (expField_ne_of_class hx) (expField_ne_of_class hy)

end Sys2Proof.Machine

/-! PROOFS. RECOMPOSE of decoded fields in closed form, and the reconstruction of a normal value (spec R173, R174). -/

namespace Sys2Proof.Machine

/-! ### Decoded fields recomposed -/

/-- What RECOMPOSE gives from the DECODE results of the raw fields `s`, `e`, `f` (R173). -/
def recomposeDecoded (s e f : Word) : Word := product3 (signDecode s) (expDecode e) (mantDecode f)

/-- DECODE of any operands and RECOMPOSE of its results, one after the other (R173). -/
theorem exec_decode_recompose (s : State) : ∃ t u, exec .decode s = .next t ∧
    exec .recompose { t with opa := t.res0, opb := t.res1, opc := t.res2 } = .next u ∧
    u.res0 = recomposeDecoded s.opa s.opb s.opc :=
  ⟨_, _, exec_decode s, exec_recompose _, rfl⟩

/-- Bit 0 of a raw sign at the place of a pattern's sign (R173). -/
theorem shiftLeft_31_eq_signBit (s : Word) : s <<< 31 = signBit (decide (s.toNat % 2 = 1)) := by
  apply BitVec.eq_of_toNat_eq
  rw [signBit_toNat, BitVec.toNat_shiftLeft, Nat.shiftLeft_eq]
  simp only [decide_eq_true_eq]
  split <;> omega

/-- The fraction field of a fraction field is that field. -/
theorem fracField_fracField (x : Word) : fracField (fracField x) = fracField x := by
  rw [fracField, fracField, BitVec.and_assoc, BitVec.and_self]

/-- Up to exponent 254 the decoded fields are recomposed with one rounding (R173). -/
theorem recomposeDecoded_eq_round32 {e : Word} (s f : Word) (he : e.toNat ≤ 254) :
    recomposeDecoded s e f = round32 (decide (s.toNat % 2 = 1)) ⟨(fracField f).toNat, (e.toNat : ℤ) - 150⟩ := by
  rw [recomposeDecoded, product3_decoded_finite s e f he, fracField_toNat]

/-- The same as Round32 of the exact product (R173). -/
theorem recomposeDecoded_eq_round32Exact {e : Word} (s f : Word) (he : e.toNat ≤ 254) :
    recomposeDecoded s e f =
      round32Exact (decide (s.toNat % 2 = 1)) ((fracField f).toNat * 2 ^ ((e.toNat : ℤ) - 150)) := by
  rw [recomposeDecoded_eq_round32 s f he, round32_eq_round32Exact]

/-- A zero fraction gives a signed zero (R173, R174). -/
theorem recomposeDecoded_of_zero {e f : Word} (s : Word) (he : e.toNat ≤ 254) (hf : fracField f = 0#32) :
    recomposeDecoded s e f = s <<< 31 := by
  rw [recomposeDecoded_eq_round32 s f he, hf, shiftLeft_31_eq_signBit, signBit_eq_packFields]
  exact round32_zero _ _

/-- A product in the normal range is packed with no rounding (R173). -/
theorem recomposeDecoded_of_normal {e f : Word} {p : Nat} (s : Word) (he : e.toNat ≤ 254)
    (h₁ : 2 ^ p ≤ (fracField f).toNat) (h₂ : (fracField f).toNat < 2 ^ (p + 1)) (h : 24 ≤ p + e.toNat) :
    recomposeDecoded s e f = (s <<< 31) ||| (BitVec.ofNat 32 (p + e.toNat - 23) <<< 23) |||
      ((fracField f <<< (23 - p)) &&& 0x7FFFFF#32) := by
  have hp : p < 23 := (Nat.pow_lt_pow_iff_right (by norm_num)).1 (h₁.trans_lt (fracField_lt f))
  rw [recomposeDecoded_eq_round32 s f he, round32_normal _ h₁ h₂ (by omega) (by omega) (by omega),
    fraction_shift _ (fracField_lt f) h₁ h₂, shiftLeft_31_eq_signBit,
    show ((p : ℤ) + (e.toNat - 150) + 127).toNat = p + e.toNat - 23 by omega]
  rfl

/-- A product below the normal range keeps RNE of its multiple of 2^-149 (R17, R173). -/
theorem recomposeDecoded_of_lt {e f : Word} (s : Word) (he : e.toNat ≤ 254)
    (h : ((fracField f).toNat : ℚ) * 2 ^ ((e.toNat : ℤ) - 150) < 2 ^ (-126 : ℤ)) :
    recomposeDecoded s e f =
      (s <<< 31) ||| BitVec.ofNat 32 (rne ((fracField f).toNat * 2 ^ ((e.toNat : ℤ) - 1))) := by
  have scale : ((fracField f).toNat : ℚ) * 2 ^ ((e.toNat : ℤ) - 150) * 2 ^ (149 : ℤ) =
      (fracField f).toNat * 2 ^ ((e.toNat : ℤ) - 1) := by
    rw [mul_assoc, ← zpow_add₀ two_ne_zero]
    congr 2
    ring
  rw [recomposeDecoded_eq_round32Exact s f he, round32Exact_of_lt _ (by positivity) h, scale, shiftLeft_31_eq_signBit]

/-- A product below the normal range is a whole number of 2^-149 for every exponent but 0, so it is not rounded (R173). -/
theorem recomposeDecoded_of_subnormal {e f : Word} {p : Nat} (s : Word) (he : 1 ≤ e.toNat)
    (h₂ : (fracField f).toNat < 2 ^ (p + 1)) (h : p + e.toNat ≤ 23) :
    recomposeDecoded s e f = (s <<< 31) ||| (fracField f <<< (e.toNat - 1)) := by
  have below : ((fracField f).toNat : ℚ) * 2 ^ ((e.toNat : ℤ) - 150) < 2 ^ (-126 : ℤ) :=
    calc ((fracField f).toNat : ℚ) * 2 ^ ((e.toNat : ℤ) - 150)
        < 2 ^ ((p + 1 : ℕ) : ℤ) * 2 ^ ((e.toNat : ℤ) - 150) := by
          rw [zpow_natCast]
          gcongr
          exact_mod_cast h₂
      _ = 2 ^ (((p + 1 : ℕ) : ℤ) + (e.toNat - 150)) := (zpow_add₀ two_ne_zero _ _).symm
      _ ≤ 2 ^ (-126 : ℤ) := zpow_le_zpow_right₀ (by norm_num) (by omega)
  have whole : ((fracField f).toNat : ℚ) * 2 ^ ((e.toNat : ℤ) - 1) =
      (((fracField f).toNat * 2 ^ (e.toNat - 1) : ℕ) : ℚ) := by
    rw [show (e.toNat : ℤ) - 1 = ((e.toNat - 1 : ℕ) : ℤ) by omega, zpow_natCast]
    push_cast
    rfl
  rw [recomposeDecoded_of_lt s (by omega) below, whole, rne_natCast]
  congr 1
  apply BitVec.eq_of_toNat_eq
  rw [BitVec.toNat_ofNat, BitVec.toNat_shiftLeft, Nat.shiftLeft_eq]

/-- Exponent 0 puts the product half a place below the last one kept (R173). -/
theorem recomposeDecoded_exponent_zero {e : Word} (s f : Word) (he : e = 0#32) :
    recomposeDecoded s e f = (s <<< 31) ||| BitVec.ofNat 32 (rne ((fracField f).toNat / 2)) := by
  have hf : ((fracField f).toNat : ℚ) < 2 ^ 23 := by exact_mod_cast fracField_lt f
  subst he
  have below : ((fracField f).toNat : ℚ) * 2 ^ (((0#32).toNat : ℤ) - 150) < 2 ^ (-126 : ℤ) :=
    calc ((fracField f).toNat : ℚ) * 2 ^ (((0#32).toNat : ℤ) - 150)
        < 2 ^ 23 * 2 ^ (((0#32).toNat : ℤ) - 150) := by gcongr
      _ < 2 ^ (-126 : ℤ) := by norm_num
  rw [recomposeDecoded_of_lt s (by decide) below]
  norm_num [div_eq_mul_inv]

/-- Up to exponent 254 the result is finite: at exponent 0 at most 2^22 places of a subnormal, else an exact product
(R173). -/
theorem recomposeDecoded_not_infinity {e : Word} (s f : Word) (he : e.toNat ≤ 254) :
    classify (recomposeDecoded s e f) ≠ .infinity := by
  have hf := fracField_lt f
  rw [ne_eq, classify_eq_infinity]
  by_cases h0 : e = 0#32
  · have half : rne (((fracField f).toNat : ℚ) / 2) ≤ 2 ^ 22 := by
      refine rne_le_of_lt (by positivity) ?_
      rw [div_lt_iff₀ two_pos]
      exact_mod_cast hf
    rw [recomposeDecoded_exponent_zero s f h0, shiftLeft_31_eq_signBit, signBit_or_ofNat,
      expField_packFields _ (by omega) (by omega)]
    omega
  · have exact := value_magnitude_round32 (decide (s.toNat % 2 = 1)) (m := (fracField f).toNat) (e := (e.toNat : ℤ) - 150)
      (by omega) (by bv_omega) (by omega)
    rw [← recomposeDecoded_eq_round32 s f he] at exact
    exact fun h => exact.2 h.1

/-- From exponent 255 on the second factor is +infinity, and a zero fraction makes the product invalid (R173). -/
theorem recomposeDecoded_of_overflow {e : Word} (s f : Word) (he : 255 ≤ e.toNat) :
    (fracField f = 0#32 → recomposeDecoded s e f = canonNaN) ∧
    (fracField f ≠ 0#32 → recomposeDecoded s e f = (s <<< 31) ||| posInf) := by
  rw [recomposeDecoded, product3_decoded_inf s e f he, ← fracField_toNat, shiftLeft_31_eq_signBit, signBit_or_posInf]
  constructor
  · intro h
    rw [h]
    rfl
  · intro h
    exact if_neg (mt (fun h0 => BitVec.eq_of_toNat_eq h0) h)

/-- From exponent 1 to 254 the result is exactly the product (R173). -/
theorem val32_recomposeDecoded {e : Word} (s f : Word) (h₁ : 1 ≤ e.toNat) (h₂ : e.toNat ≤ 254) :
    val32 (recomposeDecoded s e f) = (-1) ^ s.toNat * (fracField f).toNat * 2 ^ ((e.toNat : ℤ) - 150) := by
  rw [recomposeDecoded, val32_product3_decoded s e f h₁ h₂, fracField_toNat]

/-! ### The fields of a normal value recomposed -/

/-- The fields of a normal value, recomposed, lack the term of the implicit 1 (R174). -/
theorem val32_recomposeDecoded_fields {x : Word} (h : classify x = .normal) :
    val32 (recomposeDecoded (signField x) (expField x) (fracField x)) =
      val32 x - (-1) ^ (signField x).toNat * 2 ^ (((expField x).toNat : ℤ) - 127) := by
  obtain ⟨h₁, h₂⟩ := (classify_eq_normal x).1 h
  rw [val32_recomposeDecoded _ _ h₁ h₂, fracField_fracField, val32_of_normal h,
    show ((expField x).toNat : ℤ) - 150 = (expField x).toNat - 127 + -23 by ring, zpow_add₀ two_ne_zero]
  ring

/-- What is left has the fraction as its significand, without the implicit 1, and so is smaller (R174). -/
theorem abs_val32_recomposeDecoded_fields_lt {x : Word} (h : classify x = .normal) :
    |val32 (recomposeDecoded (signField x) (expField x) (fracField x))| < |val32 x| := by
  obtain ⟨h₁, h₂⟩ := (classify_eq_normal x).1 h
  rw [val32_recomposeDecoded _ _ h₁ h₂, fracField_fracField, abs_val32, magnitude_of_ne (by omega), Mag.value_eq,
    abs_mul, abs_mul, abs_neg_one_pow, one_mul, Nat.abs_cast, abs_of_pos (by positivity)]
  gcongr
  exact Nat.lt_add_of_pos_left (by norm_num)

/-! ### The obligations -/

/-- Settles O47: the result is one rounding of the exact product up to exponent 254, and a product with +infinity from there
on; the clauses are the ranges of that product. -/
theorem recomposeOfDecodedClosedForm : Obligations.RecomposeOfDecodedClosedForm := by
  intro st g _ hg
  subst hg
  obtain ⟨t, u, ht, hu, result⟩ := exec_decode_recompose st
  refine ⟨t, u, ht, hu, ?_⟩
  rw [result]
  refine ⟨fun _ => recomposeDecoded_of_zero st.opa,
    fun p h₁ h₂ lo hi => ⟨recomposeDecoded_of_normal st.opa h₂ lo hi, recomposeDecoded_of_subnormal st.opa h₁ hi⟩,
    recomposeDecoded_exponent_zero st.opa st.opc, fun h => (recomposeDecoded_of_overflow st.opa st.opc h).1,
    fun h => (recomposeDecoded_of_overflow st.opa st.opc h).2, val32_recomposeDecoded st.opa st.opc, fun h => ?_,
    recomposeDecoded_not_infinity st.opa st.opc⟩
  have sign : st.opa.getLsbD 0 = decide (st.opa.toNat % 2 = 1) := Nat.testBit_zero _
  rw [recomposeDecoded_eq_round32Exact st.opa st.opc (by simp [h]), sign, h]
  rfl

/-- Settles O48: EXTRACT gives the fields of the pattern, and what RECOMPOSE gives from the decoded fields lacks the implicit
1. -/
theorem reconstructionOmitsImplicitOne : Obligations.ReconstructionOmitsImplicitOne := by
  intro s hs
  have he := ((classify_eq_normal s.opa).1 hs).2
  refine ⟨_, _, _, exec_extract s, exec_decode _, exec_recompose _, val32_recomposeDecoded_fields hs,
    abs_val32_recomposeDecoded_fields_lt hs, fun hf => ?_⟩
  exact recomposeDecoded_of_zero (signField s.opa) he ((fracField_fracField s.opa).trans hf)

end Sys2Proof.Machine

/-! PROOFS. The pipeline as a host program: what a run of each pseudo-instruction leaves, no event of others coming between
its lines, and `deconstruct` in closed form (spec R98, R99, R176, R244). -/

namespace Sys2Proof.Machine

/-! ### Lines one after the other -/

/-- A first line that is performed, and the lines after it (R98). -/
theorem performBasics_cons_of_next {b : Basic} {bs : List Basic} {h h' : HostState} (hb : performBasic b h = .next h') :
    performBasics [] (b :: bs) h = performBasics [] bs h' := by
  rw [performBasics_cons, List.headD_nil, performTurn_zero, hb, List.tail_nil]

/-- First lines that are performed, and the lines after them (R98). -/
theorem performBasics_append_of_next {bs cs : List Basic} {h h' : HostState}
    (hb : performBasics [] bs h = .next h') : performBasics [] (bs ++ cs) h = performBasics [] cs h' := by
  rw [performBasics_append_nil, hb]

/-- Binding a name gives it its value and leaves the values of the others (R98). -/
theorem lookupName_bind (l : List (Name × Word)) (m n : Name) (d : Word) :
    lookupName ((m, d) :: unbindName l m) n = if m = n then some d else lookupName l n := by
  rw [lookupName]
  split
  · rfl
  · exact lookupName_unbindName l (Ne.symm ‹_›)

/-! ### Pseudo-instructions -/

/-- A run of lines that binds no name ends in `h'`, where accesses are served and the results are the three given. -/
structure LeavesResults (bs : List Basic) (h h' : HostState) (r0 r1 r2 : Word) : Prop where
  run : performBasics [] bs h = .next h'
  serving : h'.machine.phase = .serving
  names : h'.names = h.names
  res0 : h'.machine.res0 = r0
  res1 : h'.machine.res1 = r1
  res2 : h'.machine.res2 = r2

/-- `extract` leaves the fields of its value (R99, R110). -/
theorem expandExtract_leaves {h : HostState} {x : Value} {w : Word} (hp : h.machine.phase = .serving)
    (hx : x.word h.names = some w) :
    ∃ h', LeavesResults (expandExtract x) h h' (signField w) (expField w) (fracField w) := by
  have write := (performBasic_operand hp hx).1
  have command := performBasic_command (h := ⟨(h.machine.setOpa w).answer .okWrite, h.names⟩) hp (exec_extract _)
  have run := (performBasics_cons_of_next write).trans (performBasics_cons_of_next (bs := []) command)
  exact ⟨_, run, hp, rfl, rfl, rfl, rfl⟩

/-- Three values written to the operand registers and a command: it runs on a machine with these operands (R99). -/
theorem performBasics_operands_command {h : HostState} {a b c : Value} {x y z : Word} (i : Instr)
    (hp : h.machine.phase = .serving) (ha : a.word h.names = some x) (hb : b.word h.names = some y)
    (hc : c.word h.names = some z) : ∃ m : State, m.opa = x ∧ m.opb = y ∧ m.opc = z ∧ m.phase = .serving ∧
      ∀ t, exec i m = .next t →
        performBasics [] [wrReg .opa a, wrReg .opb b, wrReg .opc c, wrReg .ctrl (.cmd i)] h =
          .next ⟨t.answer .okWrite, h.names⟩ := by
  let mA := (h.machine.setOpa x).answer .okWrite
  let mB := (mA.setOpb y).answer .okWrite
  let mC := (mB.setOpc z).answer .okWrite
  have writeA : performBasic (wrReg .opa a) h = .next ⟨mA, h.names⟩ := (performBasic_operand hp ha).1
  have writeB : performBasic (wrReg .opb b) ⟨mA, h.names⟩ = .next ⟨mB, h.names⟩ :=
    (performBasic_operand (h := ⟨mA, h.names⟩) hp hb).2.1
  have writeC : performBasic (wrReg .opc c) ⟨mB, h.names⟩ = .next ⟨mC, h.names⟩ :=
    (performBasic_operand (h := ⟨mB, h.names⟩) hp hc).2.2
  refine ⟨mC, rfl, rfl, rfl, hp, fun t ht => ?_⟩
  rw [performBasics_cons_of_next writeA, performBasics_cons_of_next writeB, performBasics_cons_of_next writeC,
    performBasics_cons_of_next (performBasic_command (h := ⟨mC, h.names⟩) hp ht), performBasics_nil]

/-- `decode` leaves the decoded values (R99, R130). -/
theorem expandDecode_leaves {h : HostState} {a b c : Value} {x y z : Word} (hp : h.machine.phase = .serving)
    (ha : a.word h.names = some x) (hb : b.word h.names = some y) (hc : c.word h.names = some z) :
    ∃ h', LeavesResults (expandDecode a b c) h h' (signDecode x) (expDecode y) (mantDecode z) := by
  obtain ⟨m, rfl, rfl, rfl, hm, run⟩ := performBasics_operands_command .decode hp ha hb hc
  exact ⟨_, run _ (exec_decode m), hm, rfl, rfl, rfl, rfl⟩

/-- `recompose` leaves the product (R99, R170). -/
theorem expandRecompose_leaves {h : HostState} {a b c : Value} {x y z : Word} (hp : h.machine.phase = .serving)
    (ha : a.word h.names = some x) (hb : b.word h.names = some y) (hc : c.word h.names = some z) :
    ∃ h', LeavesResults (expandRecompose a b c) h h' (product3 x y z) 0x00000000#32 0x00000000#32 := by
  obtain ⟨m, rfl, rfl, rfl, hm, run⟩ := performBasics_operands_command .recompose hp ha hb hc
  exact ⟨_, run _ (exec_recompose m), hm, rfl, rfl, rfl, rfl⟩

/-- What a run has after a word read of a register into a name (R98). -/
def HostState.readInto (h : HostState) (r : Reg) (n : Name) : HostState :=
  { machine := h.machine.answer (.okRead (h.machine.readReg r))
    names := (n, h.machine.readReg r) :: unbindName h.names n }

/-- A word read of a register into a name is performed (R98). -/
theorem performBasic_rdReg {h : HostState} (hp : h.machine.phase = .serving) (r : Reg) (n : Name) :
    performBasic (rdReg r n) h = .next (h.readInto r n) := performBasic_rd hp

/-- A read into a name leaves the other names' values (R98). -/
theorem lookupName_readInto (h : HostState) (r : Reg) (m n : Name) : lookupName (h.readInto r m).names n =
    if m = n then some (h.machine.readReg r) else lookupName h.names n := lookupName_bind _ m n _

/-- `results` binds three different names to the three results (R99). -/
theorem performBasics_expandResults {h : HostState} {n0 n1 n2 : Name} (hp : h.machine.phase = .serving)
    (h01 : n0 ≠ n1) (h02 : n0 ≠ n2) (h12 : n1 ≠ n2) :
    ∃ h', performBasics [] (expandResults n0 n1 n2) h = .next h' ∧ h'.machine.phase = .serving ∧
      lookupName h'.names n0 = some h.machine.res0 ∧ lookupName h'.names n1 = some h.machine.res1 ∧
      lookupName h'.names n2 = some h.machine.res2 := by
  refine ⟨((h.readInto .res0 n0).readInto .res1 n1).readInto .res2 n2, ?_, hp, ?_, ?_, ?_⟩
  · rw [expandResults, performBasics_cons_of_next (performBasic_rdReg hp .res0 n0),
      performBasics_cons_of_next (performBasic_rdReg (h := h.readInto .res0 n0) hp .res1 n1),
      performBasics_cons_of_next (performBasic_rdReg (h := (h.readInto .res0 n0).readInto .res1 n1) hp .res2 n2),
      performBasics_nil]
  · rw [lookupName_readInto, if_neg h02.symm, lookupName_readInto, if_neg h01.symm, lookupName_readInto, if_pos rfl]
    rfl
  · rw [lookupName_readInto, if_neg h12.symm, lookupName_readInto, if_pos rfl]
    rfl
  · rw [lookupName_readInto, if_pos rfl]
    rfl

/-- `deconstruct` binds its name to the fields of its value, decoded and recomposed (R99, R176). -/
theorem performBasics_expandDeconstruct {h : HostState} {x : Value} {w : Word} (k : Nat) (r : Name)
    (hp : h.machine.phase = .serving) (hx : x.word h.names = some w) :
    ∃ h', performBasics [] (expandDeconstruct k x r) h = .next h' ∧
      lookupName h'.names r = some (recomposeDecoded (signField w) (expField w) (fracField w)) := by
  obtain ⟨h1, extracted⟩ := expandExtract_leaves hp hx
  obtain ⟨h2, read2, hp2, t0, t1, t2⟩ := performBasics_expandResults (n0 := .t k 0) (n1 := .t k 1) (n2 := .t k 2)
    extracted.serving (by simp) (by simp) (by simp)
  obtain ⟨h3, decoded⟩ :=
    expandDecode_leaves (a := .name (.t k 0)) (b := .name (.t k 1)) (c := .name (.t k 2)) hp2 t0 t1 t2
  obtain ⟨h4, read4, hp4, u0, u1, u2⟩ := performBasics_expandResults (n0 := .u k 0) (n1 := .u k 1) (n2 := .u k 2)
    decoded.serving (by simp) (by simp) (by simp)
  obtain ⟨h5, recomposed⟩ :=
    expandRecompose_leaves (a := .name (.u k 0)) (b := .name (.u k 1)) (c := .name (.u k 2)) hp4 u0 u1 u2
  refine ⟨h5.readInto .res0 r, ?_, ?_⟩
  · simp only [expandDeconstruct, List.append_assoc]
    rw [performBasics_append_of_next extracted.run, performBasics_append_of_next read2,
      performBasics_append_of_next decoded.run, performBasics_append_of_next read4,
      performBasics_append_of_next recomposed.run,
      performBasics_cons_of_next (performBasic_rdReg recomposed.serving .res0 r), performBasics_nil]
  · rw [lookupName_readInto, if_pos rfl, State.readReg, recomposed.res0, decoded.res0, decoded.res1, decoded.res2,
      extracted.res0, extracted.res1, extracted.res2]
    rfl

/-! ### The obligation -/

/-- Settles O49: the pipeline is RECOMPOSE of the decoded fields of the pattern, and each clause is a range of its exponent
and fraction. -/
theorem deconstructClosedForm : Obligations.DeconstructClosedForm := by
  intro s x S E F r hp hS hE hF
  subst hS hE hF
  obtain ⟨h, run, result⟩ := performBasics_expandDeconstruct (h := ⟨s, []⟩) (x := .lit x) 0 r hp rfl
  have exponent := classify_eq_normal x
  have fraction := fracField_fracField x
  have hrun : runProgram [] [.pseudo (.deconstruct (.lit x) r)] s = .next h := by
    rw [runProgram, expandProgram, expandFrom, expandFrom, List.append_nil]
    exact run
  refine ⟨h, _, hrun, result, fun hx hF => ?_, fun p hx lo hi => ⟨fun hpE => ?_, fun hpE => ?_⟩, fun hE => ?_,
    fun hx => ?_, fun hx => ?_, exec_decode_of_extractResults (extractResults x)⟩
  · exact recomposeDecoded_of_zero _ (exponent.1 hx).2 (fraction.trans hF)
  · have closed := recomposeDecoded_of_normal (f := fracField x) (p := p) (signField x) (exponent.1 hx).2
    rw [fraction] at closed
    exact closed lo hi hpE
  · have closed := recomposeDecoded_of_subnormal (f := fracField x) (p := p) (signField x) (exponent.1 hx).1
    rw [fraction] at closed
    exact closed hi hpE
  · rw [recomposeDecoded_exponent_zero _ _ hE, fraction]
  · obtain ⟨he, hf⟩ := (classify_eq_infinity x).1 hx
    exact (recomposeDecoded_of_overflow _ _ he.ge).1 (fraction.trans (BitVec.eq_of_toNat_eq hf))
  · obtain ⟨he, hf⟩ := (classify_eq_nan x).1 hx
    refine (recomposeDecoded_of_overflow _ _ he.ge).2 fun h0 => hf ?_
    rw [← fraction, h0]
    rfl

end Sys2Proof.Machine

/-! PROOFS. Exceptional conditions: which CTRL words are illegal and what an illegal command leaves, the phase that each event
leaves, a run under the platform's duties, and the time before the first reset (spec R200, R202, R203, R214, R231, R235). -/

namespace Sys2Proof.Machine

/-! ### Illegal commands -/

/-- A word is no command's exactly when its OP is 3 or its RSVD is not 0 (R91, R96, R202). -/
theorem ne_encode_iff_fields (v : Word) : (∀ i, v ≠ encode i) ↔ opField v = 3#2 ∨ rsvdField v ≠ 0#30 := by
  have op : (opField v).toNat = v.toNat % 4 := by simp [opField]
  have rsvd : (rsvdField v).toNat = v.toNat / 4 := by
    have := v.isLt
    rw [rsvdField, BitVec.extractLsb'_toNat, Nat.shiftRight_eq_div_pow]
    omega
  rw [ne_encode_iff]
  simp only [ne_eq, ← BitVec.toNat_inj, op, rsvd, BitVec.toNat_ofNat]
  omega

@[simp] theorem Status.legal_ill (op : BitVec 2) (dom : Bool) : (Status.legal op dom).ill = false := rfl
@[simp] theorem Status.illegal_ill (op : BitVec 2) : (Status.illegal op).ill = true := rfl

/-- Every command clears ILL (R39). -/
theorem exec_ill {i : Instr} {s t : State} (h : exec i s = .next t) : t.status.ill = false := by
  cases i <;> cases h <;> rfl

/-- What a word leaves in ILL says whether it is illegal (R39, R202). -/
theorem command_ill_iff {v : Word} {s t : State} (h : command v s = .next t) :
    t.status.ill = true ↔ ∀ i, v ≠ encode i := by
  by_cases hv : ∃ i, v = encode i
  · obtain ⟨i, rfl⟩ := hv
    rw [command_encode] at h
    simp [exec_ill h]
  · have illegal := not_exists.1 hv
    cases (command_of_ne_encode illegal s).symm.trans h
    exact ⟨fun _ => illegal, fun _ => rfl⟩

/-- Settles O3: the command completes, and ILL then says whether the word is none of the three, which its fields show. -/
theorem illegalCommandExactlyWhen : Obligations.IllegalCommandExactlyWhen := by
  intro s v rest hp h
  obtain ⟨a, b, c, st, hc⟩ := command_completes v { s with port := rest }
  have hill := command_ill_iff hc
  exact ⟨_, (step_access hp h).trans (serve_ctrlWrite hc), hill.trans (ne_encode_iff v),
    hill.trans (ne_encode_iff_fields v)⟩

/-- Settles O24: the step on a word that is no command's is the illegal-command outcome, then OK; read as a word, its STATUS
is the example's. -/
theorem illegalCommandOutcome : Obligations.IllegalCommandOutcome := by
  refine ⟨fun s v rest hp h h0 h1 h2 => ?_, fun s => ?_⟩
  · have illegal := command_of_ne_encode ((ne_encode_iff v).2 ⟨h0, h1, h2⟩) { s with port := rest }
    exact (step_access hp h).trans (serve_ctrlWrite illegal)
  · calc (s.illegalCommand 3#32).readReg .status = (Status.illegal 3#2).word := rfl
      _ = 0x1A#32 := by decide

/-! ### The phase that an event leaves -/

/-- Only an event that the platform may let happen has a next state (R61, R231, R232). -/
theorem permitted_of_handle {e : Event} {s t : State} (h : handle e s = .next t) : permitted s.phase e := by
  by_contra hne
  obtain ⟨r, hr⟩ := handle_of_not_permitted hne
  cases hr.symm.trans h

/-- Releasing reset ends the reset and no other phase (R232, assumption 2). -/
theorem State.releaseReset_phase (s : State) : s.releaseReset.phase = phaseAfter s.phase .resetReleased := by
  unfold State.releaseReset
  cases hp : s.phase <;> simp [phaseAfter, hp]

/-- A handled event leaves the phase that it is said to leave (R230 to R232). -/
theorem handle_phase {e : Event} {s t : State} (h : handle e s = .next t) : t.phase = phaseAfter s.phase e := by
  have served (hp : s.phase = .serving) (he : servedAccess e) : t.phase = s.phase := by
    obtain ⟨u, -, hu, phase, -⟩ := handle_servedAccess hp he
    cases hu.symm.trans h
    exact phase.trans hp.symm
  have may := permitted_of_handle h
  cases e with
  | access a => exact served may trivial
  | host x => exact served may.1 may.2
  | resetAsserted => cases h; rfl
  | resetDuringCommand v =>
    rw [handle, cutCommand, show s.phase = .serving from may] at h
    cases h
    exact State.cutAnswer_phase _ _
  | resetReleased => cases h; exact s.releaseReset_phase
  | powerApplied => cases h; rfl

/-! ### A run under the platform's duties -/

/-- Settles O16: by induction on the events to come, each of which is permitted in the phase that those before it left. -/
theorem dutifulRunHandlesEveryEvent : Obligations.DutifulRunHandlesEveryEvent := by
  intro s
  induction hport : s.port generalizing s with
  | nil => exact fun _ => ⟨s, rfl, hport, rfl⟩
  | cons e es ih =>
    rintro ⟨may, duties⟩
    obtain ⟨t, ht⟩ := handle_of_permitted (s := { s with port := es }) may
    have hphase : t.phase = phaseAfter s.phase e := handle_phase (s := { s with port := es }) ht
    obtain ⟨u, run, hu, hlast⟩ := ih t (handle_next_port ht) (hphase ▸ duties)
    exact ⟨u, (run_succ_of_step ((step_event hport).trans ht) _).trans run, hu, hlast.trans (by rw [hphase]; rfl)⟩

/-! ### Before the first reset, and with nothing to come -/

/-- An access is refused before the first reset (R231, assumption 3). -/
theorem arrive_unreset (a : Access) {s : State} (hp : s.phase = .unreset) : arrive a s = .refused .accessBeforeReset := by
  rw [arrive, hp]

/-- Nothing but asserting reset ends the time before the first reset: a cut of a command, which does so too, is not permitted
then (R231, assumptions 2 and 5). -/
theorem phaseAfter_unreset {e : Event} (he : e ≠ .resetAsserted) (may : permitted .unreset e) :
    phaseAfter .unreset e = .unreset := by
  cases e with
  | resetAsserted => exact absurd rfl he
  | resetDuringCommand v => cases may
  | _ => rfl

/-- Settles O21: each refusal is a branch of arriving or of the cut, the phase is the one that a permitted event leaves, and
asserting reset writes every register. -/
theorem powerUpNeedsReset : Obligations.PowerUpNeedsReset := by
  refine ⟨fun s rest h => ⟨_, step_event h, rfl, rfl⟩, fun s rest hp => ⟨?_, ?_, ?_, ?_, ?_⟩⟩
  · exact fun a h => (step_event h).trans (arrive_unreset a hp)
  · intro x h lo hi
    exact (step_event h).trans ((arriveAt_of_windowOffset (windowOffset_of_mem lo hi) _).trans (arrive_unreset _ hp))
  · intro v h
    rw [step_event h, handle, cutCommand, hp]
  · intro e t h he hstep
    rw [step_event h] at hstep
    have may : permitted s.phase e := permitted_of_handle (s := { s with port := rest }) hstep
    have hphase : t.phase = phaseAfter s.phase e := handle_phase (s := { s with port := rest }) hstep
    rw [hp] at may hphase
    exact hphase.trans (phaseAfter_unreset he may)
  · exact fun h => ⟨_, step_event h, ⟨rfl, rfl, rfl, rfl, rfl, rfl, rfl⟩, rfl, rfl⟩

/-- Settles O22: the step with nothing to come is idle. -/
theorem idleStepKeepsState : Obligations.IdleStepKeepsState := fun _ => step_idle

end Sys2Proof.Machine

/-! PROOFS. Reset: what asserting it leaves, alone or while a command is being served, accesses while it is asserted and after
its release, the first command after it, and its values (spec R230, R232 to R234). -/

namespace Sys2Proof.Machine

/-! ### What asserting reset leaves -/

/-- STATUS reads 0 at its reset value (R37, R230). -/
@[simp] theorem Status.word_reset : Status.reset.word = 0x00000000#32 := by decide

/-- Asserting reset leaves the reset registers, whatever the state (R230). -/
theorem State.assertReset_sameRegisters (s : State) : SameRegisters s.assertReset State.reset :=
  ⟨rfl, rfl, rfl, rfl, rfl, rfl, rfl⟩

/-- Releasing reset changes no register (R232). -/
theorem State.releaseReset_sameRegisters (s : State) : SameRegisters s.releaseReset s := by
  constructor <;> simp

/-- Holding the same registers is transitive. -/
theorem SameRegisters.trans {s t u : State} (h : SameRegisters s t) (h' : SameRegisters t u) : SameRegisters s u := by
  obtain ⟨h1, h2, h3, h4, h5, h6, h7⟩ := h
  obtain ⟨k1, k2, k3, k4, k5, k6, k7⟩ := h'
  exact ⟨h1.trans k1, h2.trans k2, h3.trans k3, h4.trans k4, h5.trans k5, h6.trans k6, h7.trans k7⟩

/-- Settles O18: the state is the reset's by computation, and STATUS and CTRL are then read from the reset registers. -/
theorem resetSetsEveryRegister : Obligations.ResetSetsEveryRegister := by
  intro s rest h
  have read := ({ s with port := rest } : State).assertReset_sameRegisters.readReg_eq
  exact ⟨_, step_event h, rfl, (read .status).trans Status.word_reset, read .ctrl⟩

/-! ### Accesses while reset is asserted and after its release -/

/-- An access is refused while reset is asserted (R232, assumption 4). -/
theorem arrive_inReset (a : Access) {s : State} (hp : s.phase = .inReset) : arrive a s = .refused .accessDuringReset := by
  rw [arrive, hp]

/-- Reset asserted and then released leaves the reset registers, with accesses served (R230, R232). -/
theorem step_reset_then_release {s : State} {rest : List Event} (h : s.port = .resetAsserted :: .resetReleased :: rest) :
    ∃ t u, step s = .next t ∧ step t = .next u ∧ SameRegisters u State.reset ∧ u.phase = .serving ∧ u.port = rest := by
  have released : SameRegisters ({ s with port := rest } : State).assertReset.releaseReset State.reset :=
    (State.releaseReset_sameRegisters _).trans (State.assertReset_sameRegisters _)
  exact ⟨_, _, step_event h, step_event (e := .resetReleased) (rest := rest) rfl, released, rfl, rfl⟩

/-- Settles O19: an access then is refused on arrival, and once reset is asserted and released the next one is served. -/
theorem noAccessWhileResetAsserted : Obligations.NoAccessWhileResetAsserted := by
  refine ⟨fun s a rest hp h => (step_event h).trans (arrive_inReset a hp), fun s a rest h => ?_⟩
  obtain ⟨t, u, ht, hu, registers, serving, arrival⟩ := step_reset_then_release h
  obtain ⟨w, -, hw, -, port, -⟩ := serve_next a { u with port := rest }
  exact ⟨t, u, w, ht, hu, registers, serving, (step_access serving arrival).trans hw, port, hw⟩

/-! ### Reset while a command is being served -/

/-- The response to the CTRL write that a reset cuts is none, OK or ERR (R233, assumption 5). -/
theorem State.cutAnswer_answers_cases (s : State) (c : Option Bool) :
    (s.cutAnswer c).answers = s.answers ∨ (s.cutAnswer c).answers = .okWrite :: s.answers ∨
      (s.cutAnswer c).answers = .err :: s.answers := by
  match c with
  | none => exact .inl rfl
  | some true => exact .inr (.inl rfl)
  | some false => exact .inr (.inr rfl)

/-- A reset that cuts a command leaves the reset registers, whatever the command did and whatever is answered (R233). -/
theorem State.assertResetDuringCommand_sameRegisters (s : State) :
    SameRegisters s.assertResetDuringCommand State.reset := by
  constructor <;> simp [State.assertResetDuringCommand, State.reset]

/-- A reset while DCF32 serves cuts the command (R233). -/
theorem cutCommand_serving {s : State} (hp : s.phase = .serving) : cutCommand s = .next s.assertResetDuringCommand := by
  rw [cutCommand, hp]

/-- Settles O20: the cut asserts reset, and the response it leaves open is the only thing that can differ. -/
theorem resetDuringCommandLeavesResetState : Obligations.ResetDuringCommandLeavesResetState := by
  intro s v rest hp h
  exact ⟨_, (step_event h).trans (cutCommand_serving hp), State.assertResetDuringCommand_sameRegisters _,
    State.cutAnswer_phase _ _, State.cutAnswer_port _ _, State.cutAnswer_answers_cases _ _⟩

/-! ### The first command after reset -/

/-- Settles O23: DECODE reads the reset operands, which give +1.0, 2^-127 and +0.0. -/
theorem decodeRightAfterReset : Obligations.DecodeRightAfterReset := by
  have decoded := (command_encode .decode State.reset).trans (exec_decode State.reset)
  exact ⟨_, (step_access rfl rfl).trans (serve_ctrlWrite decoded), rfl, rfl, rfl, signDecode_zero, expDecode_zero,
    mantDecode_of_zero (f := State.reset.opc) rfl⟩

/-! ### The reset state -/

/-- Settles O54: the invariant holds of any state at its reset values, and the values are those of R230. -/
theorem resetStateMeetsInvariant : Obligations.ResetStateMeetsInvariant :=
  ⟨.of_reset (.refl _), rfl, rfl, rfl, rfl, rfl, rfl, Status.word_reset, rfl⟩

end Sys2Proof.Machine
